-- ==== Sys2Proof/Config.lean ====
section
/-! DEFINITION. What is fixed for the machine: the ONE configuration record of spec 00_scope.md R5, from which the state and the
meanings take every size (Safety.lean and the statements write the rules' own numbers, and so check them); and the FREE VALUES,
what the spec leaves open, as constants without a body, so that no proof can rest on their value. The parameters of R6 with a default (`FONT`, `FONT_BASE`, `ST_TICKS`) stand in Machine/Params.lean. -/

namespace Sys2Proof.Config

/-- The parameters of R5, a field a row of its table. -/
structure Parameters where
  /-- `MEM_SIZE`: bytes of memory -/
  memSize : Nat
  /-- `PROG_BASE`: load address, and `pc` after reset -/
  progBase : Nat
  /-- `RESERVED_TOP`: last address of the reserved low region, a convention for programs (R51, R52) -/
  reservedTop : Nat
  /-- `NREG`: general registers -/
  nReg : Nat
  /-- `REG_BITS`: width of a general register -/
  regBits : Nat
  /-- `I_BITS`: width of `I` -/
  iBits : Nat
  /-- `PC_BITS`: width of `pc`, and of a stack slot, which holds a value of `pc` -/
  pcBits : Nat
  /-- `STACK_SLOTS`: return-address slots -/
  stackSlots : Nat
  /-- `SP_MAX`: largest legal stack pointer -/
  spMax : Nat
  /-- `TIMER_BITS`: width of the timers (of the sound timer by D30) -/
  timerBits : Nat
  /-- `DISP_W`: display columns -/
  dispW : Nat
  /-- `DISP_H`: display rows -/
  dispH : Nat
  /-- `NKEYS`: keys -/
  nKeys : Nat
  /-- `NGLYPHS`: font glyphs -/
  nGlyphs : Nat
  /-- `GLYPH_BYTES`: bytes a glyph -/
  glyphBytes : Nat
  /-- `INSTR_BYTES`: bytes an instruction -/
  instrBytes : Nat
  /-- `SPRITE_W`: pixels a sprite row -/
  spriteW : Nat
  /-- `TICK_HZ`: conventional rate of `tick_timer`; no rule depends on it (R213) -/
  tickHz : Nat
deriving DecidableEq, Repr

/-- The values of R5 (D2: normative, in one place). -/
abbrev params : Parameters where
  memSize := 4096
  progBase := 0x200
  reservedTop := 0x1FF
  nReg := 16
  regBits := 8
  iBits := 16
  pcBits := 16
  stackSlots := 16
  spMax := 15
  timerBits := 8
  dispW := 64
  dispH := 32
  nKeys := 16
  nGlyphs := 16
  glyphBytes := 5
  instrBytes := 2
  spriteW := 8
  tickHz := 60

/-- The longest ROM `load` accepts: `MEM_SIZE - PROG_BASE` bytes (R203). -/
abbrev maxRom : Nat := params.memSize - params.progBase

/-- FREE VALUE (R21, R122, D23, U7): the byte `rnd` of the k-th draw; `State.rndDraws` counts the draws, so each
draw has a byte of its own. DESIGN CHOICE in its form, safe: nothing constrains a value (log entry 6). -/
opaque randomByte : Nat → BitVec params.regBits

/-- FREE VALUE (R155(b), D11, U9): the key an implementation prefers for a keypad state. Where that key is down it is the
one Fx0A reports (`Keypad.pick` in Machine/Ops.lean), so every `KEY_PICK` the spec admits is some preference.
DESIGN CHOICE in its form, safe (log entry 5). -/
opaque keyPreference : Vector Bool params.nKeys → Fin params.nKeys

end Sys2Proof.Config
end

