-- ==== Sys2Proof/Word.lean ====
section
/-! DEFINITION. The word types of the wrack core (spec 00_scope.md R10: every value is an unsigned
number of a fixed width; addition and subtraction of `BitVec` wrap, as R123 and R132 ask). These are the widths of a memory cell,
of an instruction word and of its fields (R35, R70, R71), which the encoding fixes; the registers of the state take their widths
from the configuration record (R5), whose values agree. -/

namespace Sys2Proof

/-- One byte: a memory cell (R35), the immediate `kk` (R71), and the value of a general register or a timer. -/
abbrev Byte := BitVec 8

/-- Sixteen bits: an instruction word (R70), and the value of `I`, of `pc` and of a stack slot. -/
abbrev Word := BitVec 16

/-- Four bits: one field of an instruction word (R71). -/
abbrev Nibble := BitVec 4

/-- Twelve bits: the address field `nnn` (R71). -/
abbrev Addr := BitVec 12

end Sys2Proof
end

