-- ==== Sys2Proof/Syntax.lean ====
section
/-! DEFINITION. The instructions: one constructor per row of spec/opcode_table.json (R76), in the table's order, and
last the table's default row, the unassigned words (R77). -/

namespace Sys2Proof

/-- The value of a field `x` or `y`, four bits of the word (R71): each of its 16 values names a general register (R22, R72). -/
abbrev RegIndex := Fin 16

/-- VF, the flag register, is `V[15]` and nothing else (R23). -/
abbrev regF : RegIndex := 15

/-- The instruction set. SHR and SHL carry the field `y` they ignore (R79), so that no bit of a word is lost. -/
inductive Instr where
  /-- 00E0 CLS -/
  | cls
  /-- 00EE RET -/
  | ret
  /-- 1nnn JP -/
  | jp (nnn : Addr)
  /-- 2nnn CALL -/
  | call (nnn : Addr)
  /-- 3xkk SEI -/
  | sei (x : RegIndex) (kk : Byte)
  /-- 4xkk SNEI -/
  | snei (x : RegIndex) (kk : Byte)
  /-- 5xy0 SE -/
  | se (x y : RegIndex)
  /-- 6xkk LDI -/
  | ldi (x : RegIndex) (kk : Byte)
  /-- 7xkk ADDI -/
  | addi (x : RegIndex) (kk : Byte)
  /-- 8xy0 MOV -/
  | mov (x y : RegIndex)
  /-- 8xy1 OR -/
  | or (x y : RegIndex)
  /-- 8xy2 AND -/
  | and (x y : RegIndex)
  /-- 8xy3 XOR -/
  | xor (x y : RegIndex)
  /-- 8xy4 ADD -/
  | add (x y : RegIndex)
  /-- 8xy5 SUB -/
  | sub (x y : RegIndex)
  /-- 8xy6 SHR -/
  | shr (x y : RegIndex)
  /-- 8xy7 SUBN -/
  | subn (x y : RegIndex)
  /-- 8xyE SHL -/
  | shl (x y : RegIndex)
  /-- 9xy0 SNE -/
  | sne (x y : RegIndex)
  /-- Annn LDIX -/
  | ldix (nnn : Addr)
  /-- Bnnn JPV0 -/
  | jpv0 (nnn : Addr)
  /-- Cxkk RND -/
  | rnd (x : RegIndex) (kk : Byte)
  /-- Dxyn DRW -/
  | drw (x y : RegIndex) (n : Nibble)
  /-- Ex9E SKP -/
  | skp (x : RegIndex)
  /-- ExA1 SKNP -/
  | sknp (x : RegIndex)
  /-- Fx07 GETDT -/
  | getdt (x : RegIndex)
  /-- Fx0A WAITK -/
  | waitk (x : RegIndex)
  /-- Fx15 SETDT -/
  | setdt (x : RegIndex)
  /-- Fx18 SETST -/
  | setst (x : RegIndex)
  /-- Fx1E ADDIX -/
  | addix (x : RegIndex)
  /-- Fx29 FONT -/
  | font (x : RegIndex)
  /-- Fx33 BCD -/
  | bcd (x : RegIndex)
  /-- Fx55 STM -/
  | stm (x : RegIndex)
  /-- Fx65 LDM -/
  | ldm (x : RegIndex)
  /-- any other word: UNASSIGNED, a no-op (R77, R95) -/
  | unassigned (w : Word)
deriving DecidableEq, Repr

end Sys2Proof
end

