-- ==== Sys2Proof/WellFormed.lean ====
section
/-! DEFINITION. Which terms of `Instr` are instructions. Every operand field has a type of exactly the field's width
(R71), so the one check is on the default row: it stands for the words that match no other row (R77). -/

namespace Sys2Proof

/-- The unassigned words, as R77 enumerates them group by group. -/
def isUnassignedWord (w : Word) : Bool :=
  (w &&& 0xF000#16 == 0x0000#16 && w != 0x00E0#16 && w != 0x00EE#16) ||
  (w &&& 0xF000#16 == 0x5000#16 && w &&& 0x000F#16 != 0x0000#16) ||
  (w &&& 0xF000#16 == 0x8000#16 &&
    [0x8#16, 0x9#16, 0xA#16, 0xB#16, 0xC#16, 0xD#16, 0xF#16].contains (w &&& 0x000F#16)) ||
  (w &&& 0xF000#16 == 0x9000#16 && w &&& 0x000F#16 != 0x0000#16) ||
  (w &&& 0xF000#16 == 0xE000#16 && w &&& 0x00FF#16 != 0x009E#16 && w &&& 0x00FF#16 != 0x00A1#16) ||
  (w &&& 0xF000#16 == 0xF000#16 &&
    !([0x07#16, 0x0A#16, 0x15#16, 0x18#16, 0x1E#16, 0x29#16, 0x33#16, 0x55#16, 0x65#16].contains
      (w &&& 0x00FF#16)))

/-- A term is well-formed unless it wraps an assigned word as unassigned (R77). -/
def Instr.wellFormed : Instr → Bool
  | .unassigned w => isUnassignedWord w
  | .cls | .ret => true
  | .jp _ | .call _ | .ldix _ | .jpv0 _ => true
  | .sei _ _ | .snei _ _ | .ldi _ _ | .addi _ _ | .rnd _ _ => true
  | .se _ _ | .mov _ _ | .or _ _ | .and _ _ | .xor _ _ | .add _ _ | .sub _ _ | .shr _ _
  | .subn _ _ | .shl _ _ | .sne _ _ => true
  | .drw _ _ _ => true
  | .skp _ | .sknp _ | .getdt _ | .waitk _ | .setdt _ | .setst _ | .addix _ | .font _
  | .bcd _ | .stm _ | .ldm _ => true

end Sys2Proof
end

