-- ==== Sys2Proof/Decode.lean ====
section
/-! DEFINITION. Decoding and encoding (30_encoding.md). Every instruction is one 16-bit word, held in two bytes, the high
byte first (R70, R55). Decoding a word is total: a word of no row is `unassigned` (R77). -/

namespace Sys2Proof

/-- `op1 = w[15:12]` (R71). -/
def fieldOp1 (w : Word) : Nibble := w.extractLsb' 12 4

/-- `x = op2 = w[11:8]` (R71). -/
def fieldX (w : Word) : RegIndex := (w.extractLsb' 8 4).toFin

/-- `y = op3 = w[7:4]` (R71). -/
def fieldY (w : Word) : RegIndex := (w.extractLsb' 4 4).toFin

/-- `n = op4 = w[3:0]` (R71). -/
def fieldN (w : Word) : Nibble := w.extractLsb' 0 4

/-- `kk = w[7:0]` (R71). -/
def fieldKK (w : Word) : Byte := w.extractLsb' 0 8

/-- `nnn = w[11:0]` (R71). -/
def fieldNNN (w : Word) : Addr := w.extractLsb' 0 12

/-- Major opcode 0: two fixed words (R75). -/
def decode0 (w : Word) : Instr :=
  if w = 0x00E0#16 then .cls
  else if w = 0x00EE#16 then .ret
  else .unassigned w

/-- Major opcodes 5 and 9: assigned only when `op4 = 0` (R75). -/
def decodeWhenZero (i : Instr) (w : Word) : Instr :=
  if fieldN w = 0x0#4 then i else .unassigned w

/-- Major opcode 8: nine operations selected by `op4` (R75). -/
def decode8 (w : Word) : Instr :=
  let x := fieldX w
  let y := fieldY w
  match fieldN w with
  | 0x0#4 => .mov x y
  | 0x1#4 => .or x y
  | 0x2#4 => .and x y
  | 0x3#4 => .xor x y
  | 0x4#4 => .add x y
  | 0x5#4 => .sub x y
  | 0x6#4 => .shr x y
  | 0x7#4 => .subn x y
  | 0xE#4 => .shl x y
  | _ => .unassigned w

/-- Major opcode E: two instructions selected by `kk` (R75). -/
def decodeE (w : Word) : Instr :=
  match fieldKK w with
  | 0x9E#8 => .skp (fieldX w)
  | 0xA1#8 => .sknp (fieldX w)
  | _ => .unassigned w

/-- Major opcode F: nine instructions selected by `kk` (R75). -/
def decodeF (w : Word) : Instr :=
  let x := fieldX w
  match fieldKK w with
  | 0x07#8 => .getdt x
  | 0x0A#8 => .waitk x
  | 0x15#8 => .setdt x
  | 0x18#8 => .setst x
  | 0x1E#8 => .addix x
  | 0x29#8 => .font x
  | 0x33#8 => .bcd x
  | 0x55#8 => .stm x
  | 0x65#8 => .ldm x
  | _ => .unassigned w

/-- The dispatch of R74 on the nibbles of a word, total on the 65536 words. -/
def decodeWord (w : Word) : Instr :=
  match fieldOp1 w with
  | 0x0#4 => decode0 w
  | 0x1#4 => .jp (fieldNNN w)
  | 0x2#4 => .call (fieldNNN w)
  | 0x3#4 => .sei (fieldX w) (fieldKK w)
  | 0x4#4 => .snei (fieldX w) (fieldKK w)
  | 0x5#4 => decodeWhenZero (.se (fieldX w) (fieldY w)) w
  | 0x6#4 => .ldi (fieldX w) (fieldKK w)
  | 0x7#4 => .addi (fieldX w) (fieldKK w)
  | 0x8#4 => decode8 w
  | 0x9#4 => decodeWhenZero (.sne (fieldX w) (fieldY w)) w
  | 0xA#4 => .ldix (fieldNNN w)
  | 0xB#4 => .jpv0 (fieldNNN w)
  | 0xC#4 => .rnd (fieldX w) (fieldKK w)
  | 0xD#4 => .drw (fieldX w) (fieldY w) (fieldN w)
  | 0xE#4 => decodeE w
  | 0xF#4 => decodeF w
  | _ => .unassigned w   -- no nibble is left

/-- The word of two bytes, the high byte first (R55). -/
def wordOfBytes (hi lo : Byte) : Word := hi ++ lo

/-- `w[15:8]`, the byte at the lower address (R55). -/
def highByte (w : Word) : Byte := w.extractLsb' 8 8

/-- `w[7:0]`, the byte at the higher address (R55). -/
def lowByte (w : Word) : Byte := w.extractLsb' 0 8

/-- Why a byte sequence holds no instruction. -/
inductive DecodeError where
  /-- Fewer than two bytes: every instruction is two bytes long (R70). -/
  | truncated
deriving DecidableEq, Repr

/-- Reads one instruction off a byte sequence, and answers it with the bytes after it (R70, R55). -/
def decodeBytes : List Byte → Except DecodeError (Instr × List Byte)
  | hi :: lo :: rest => .ok (decodeWord (wordOfBytes hi lo), rest)
  | [_] => .error .truncated
  | [] => .error .truncated

/-! ## The encoder -/

/-- A register index as the four bits of its field. -/
def regField (x : RegIndex) : Nibble := BitVec.ofFin x

/-- Format A (R73): `op1 n n n`. -/
def formA (op : Nibble) (nnn : Addr) : Word := op ++ nnn

/-- Format I (R73): `op1 x k k`; format X is the same layout with a fixed `kk`. -/
def formI (op : Nibble) (x : RegIndex) (kk : Byte) : Word := op ++ (regField x ++ kk : BitVec 12)

/-- Formats R and D (R73): `op1 x y op4`. -/
def formR (op : Nibble) (x y : RegIndex) (n : Nibble) : Word :=
  op ++ (regField x ++ (regField y ++ n : BitVec 8) : BitVec 12)

/-- The word of an instruction (R76). -/
def encode : Instr → Word
  | .cls => 0x00E0#16
  | .ret => 0x00EE#16
  | .jp nnn => formA 0x1#4 nnn
  | .call nnn => formA 0x2#4 nnn
  | .sei x kk => formI 0x3#4 x kk
  | .snei x kk => formI 0x4#4 x kk
  | .se x y => formR 0x5#4 x y 0x0#4
  | .ldi x kk => formI 0x6#4 x kk
  | .addi x kk => formI 0x7#4 x kk
  | .mov x y => formR 0x8#4 x y 0x0#4
  | .or x y => formR 0x8#4 x y 0x1#4
  | .and x y => formR 0x8#4 x y 0x2#4
  | .xor x y => formR 0x8#4 x y 0x3#4
  | .add x y => formR 0x8#4 x y 0x4#4
  | .sub x y => formR 0x8#4 x y 0x5#4
  | .shr x y => formR 0x8#4 x y 0x6#4
  | .subn x y => formR 0x8#4 x y 0x7#4
  | .shl x y => formR 0x8#4 x y 0xE#4
  | .sne x y => formR 0x9#4 x y 0x0#4
  | .ldix nnn => formA 0xA#4 nnn
  | .jpv0 nnn => formA 0xB#4 nnn
  | .rnd x kk => formI 0xC#4 x kk
  | .drw x y n => formR 0xD#4 x y n
  | .skp x => formI 0xE#4 x 0x9E#8
  | .sknp x => formI 0xE#4 x 0xA1#8
  | .getdt x => formI 0xF#4 x 0x07#8
  | .waitk x => formI 0xF#4 x 0x0A#8
  | .setdt x => formI 0xF#4 x 0x15#8
  | .setst x => formI 0xF#4 x 0x18#8
  | .addix x => formI 0xF#4 x 0x1E#8
  | .font x => formI 0xF#4 x 0x29#8
  | .bcd x => formI 0xF#4 x 0x33#8
  | .stm x => formI 0xF#4 x 0x55#8
  | .ldm x => formI 0xF#4 x 0x65#8
  | .unassigned w => w

/-- The two bytes of an instruction, in the order of their addresses (R55). -/
def encodeBytes (i : Instr) : List Byte := [highByte (encode i), lowByte (encode i)]

/-! ## The opcode table -/

/-- The mask and the match of an instruction's row of R76; the default row has the mask 0 (opcode_table.json). -/
def rowOf : Instr → Word × Word
  | .cls => (0xFFFF#16, 0x00E0#16)
  | .ret => (0xFFFF#16, 0x00EE#16)
  | .jp _ => (0xF000#16, 0x1000#16)
  | .call _ => (0xF000#16, 0x2000#16)
  | .sei _ _ => (0xF000#16, 0x3000#16)
  | .snei _ _ => (0xF000#16, 0x4000#16)
  | .se _ _ => (0xF00F#16, 0x5000#16)
  | .ldi _ _ => (0xF000#16, 0x6000#16)
  | .addi _ _ => (0xF000#16, 0x7000#16)
  | .mov _ _ => (0xF00F#16, 0x8000#16)
  | .or _ _ => (0xF00F#16, 0x8001#16)
  | .and _ _ => (0xF00F#16, 0x8002#16)
  | .xor _ _ => (0xF00F#16, 0x8003#16)
  | .add _ _ => (0xF00F#16, 0x8004#16)
  | .sub _ _ => (0xF00F#16, 0x8005#16)
  | .shr _ _ => (0xF00F#16, 0x8006#16)
  | .subn _ _ => (0xF00F#16, 0x8007#16)
  | .shl _ _ => (0xF00F#16, 0x800E#16)
  | .sne _ _ => (0xF00F#16, 0x9000#16)
  | .ldix _ => (0xF000#16, 0xA000#16)
  | .jpv0 _ => (0xF000#16, 0xB000#16)
  | .rnd _ _ => (0xF000#16, 0xC000#16)
  | .drw _ _ _ => (0xF000#16, 0xD000#16)
  | .skp _ => (0xF0FF#16, 0xE09E#16)
  | .sknp _ => (0xF0FF#16, 0xE0A1#16)
  | .getdt _ => (0xF0FF#16, 0xF007#16)
  | .waitk _ => (0xF0FF#16, 0xF00A#16)
  | .setdt _ => (0xF0FF#16, 0xF015#16)
  | .setst _ => (0xF0FF#16, 0xF018#16)
  | .addix _ => (0xF0FF#16, 0xF01E#16)
  | .font _ => (0xF0FF#16, 0xF029#16)
  | .bcd _ => (0xF0FF#16, 0xF033#16)
  | .stm _ => (0xF0FF#16, 0xF055#16)
  | .ldm _ => (0xF0FF#16, 0xF065#16)
  | .unassigned _ => (0x0000#16, 0x0000#16)

/-- The 34 instruction rows of R76, mask and match, in the table's order. -/
def opcodeRows : List (Word × Word) :=
  [(0xFFFF#16, 0x00E0#16), (0xFFFF#16, 0x00EE#16), (0xF000#16, 0x1000#16), (0xF000#16, 0x2000#16),
   (0xF000#16, 0x3000#16), (0xF000#16, 0x4000#16), (0xF00F#16, 0x5000#16), (0xF000#16, 0x6000#16),
   (0xF000#16, 0x7000#16), (0xF00F#16, 0x8000#16), (0xF00F#16, 0x8001#16), (0xF00F#16, 0x8002#16)] ++
  [(0xF00F#16, 0x8003#16), (0xF00F#16, 0x8004#16), (0xF00F#16, 0x8005#16), (0xF00F#16, 0x8006#16),
   (0xF00F#16, 0x8007#16), (0xF00F#16, 0x800E#16), (0xF00F#16, 0x9000#16), (0xF000#16, 0xA000#16),
   (0xF000#16, 0xB000#16), (0xF000#16, 0xC000#16), (0xF000#16, 0xD000#16)] ++
  [(0xF0FF#16, 0xE09E#16), (0xF0FF#16, 0xE0A1#16), (0xF0FF#16, 0xF007#16), (0xF0FF#16, 0xF00A#16),
   (0xF0FF#16, 0xF015#16), (0xF0FF#16, 0xF018#16), (0xF0FF#16, 0xF01E#16), (0xF0FF#16, 0xF029#16),
   (0xF0FF#16, 0xF033#16), (0xF0FF#16, 0xF055#16), (0xF0FF#16, 0xF065#16)]

/-- A word satisfies a row: `(w AND mask) = match` (R74). -/
def rowMatches (w : Word) (row : Word × Word) : Bool := w &&& row.1 == row.2

/-! ## The host's reading of a table word -/

/-- The instruction the decoder reads from the bits `w`, of which the table gives `nbits`; the bits above are zero. The word
lies high byte first, as memory holds it (R55). -/
def decodeTableWord (nbits w : Nat) : Option Instr :=
  let word : Word := BitVec.ofNat 16 (w % 2 ^ nbits)
  match decodeBytes [highByte word, lowByte word] with
  | .ok (i, _) => some i
  | .error _ => none

end Sys2Proof
end

