-- ==== Sys2Proof/Machine/State.lean ====
section
/-! DEFINITION. The state of the machine: all that 10_state.md R20 lists, as plain data, and two fields of the model's own
for the inputs R21 names; the state after reset (R39). -/

namespace Sys2Proof.Machine

/-- The five faults of 60_exceptions.md R170, each with the record R173 latches: `pc0` is the field `at` (the address the
faulting instruction was fetched from), `instr` its word, `addr` the offending address, `key` the offending index.
R174 says what raising one does to the state, so a cycle that raises one answers a NEXT state whose status is
`halted` of the record (`raise` in Machine/Ops.lean); no step answers `Host.Outcome.fault`. -/
inductive Fault where
  /-- code 1, raised by the fetch of a cycle when `pc + 1 >= 4096` (R91). Safe: the spec's own stop. -/
  | fetchOutOfRange (pc0 addr : Word)
  /-- code 2, raised by DRW, BCD, STM, LDM when the operand runs past 4096 (R53). Safe: the spec's own stop. -/
  | memOutOfRange (pc0 instr addr : Word)
  /-- code 3, raised by CALL when `sp = 15` (R103). Safe: the spec's own stop. -/
  | stackOverflow (pc0 instr : Word)
  /-- code 4, raised by RET when `sp = 0` (R101). Safe: the spec's own stop. -/
  | stackUnderflow (pc0 instr : Word)
  /-- code 5, raised by SKP and SKNP when `V[x] > 15` (R152, R153, the spec's decision D13). Safe: the machine stops where
  the software might go on. -/
  | keyIndexOutOfRange (pc0 instr : Word) (key : Byte)
deriving DecidableEq, Repr

/-- Why an instruction has no meaning. -/
inductive Refusal where
  /-- Raised by the arm of `exec` of an instruction that is not modelled yet, and by nothing else; safe. No arm raises it. -/
  | notModelled (mnemonic : String)
deriving DecidableEq, Repr

/-- The run status (R36); the fault record exists exactly while the CPU is halted. -/
inductive Status where
  /-- the last cycle, if any, completed an instruction -/
  | running
  /-- the last cycle fetched Fx0A and found no key down -/
  | awaitingKey
  /-- a fatal error has occurred; the record is latched -/
  | halted (record : Fault)
deriving DecidableEq, Repr

/-- The operations of R8 that change state, as moves of the host. Indices and lengths are any number: a bad one is refused
(R172). The host's reads (`get`, `is_down`) change nothing and are no moves. -/
inductive HostMove where
  /-- `execute_cycle` (R90) -/
  | executeCycle
  /-- `tick_timer()` (R160) -/
  | tickTimer
  /-- `key_down(k)` (R150) -/
  | keyDown (k : Nat)
  /-- `key_up(k)` (R150) -/
  | keyUp (k : Nat)
  /-- `load(bytes)` (R203) -/
  | load (bytes : List Byte)
  /-- `reset()` (R200) -/
  | reset
deriving DecidableEq, Repr

/-- Memory: the cells that differ from what reset leaves, by rising address (`Memory.wf` in Machine/Ops.lean). -/
abbrev Memory := List Host.Cell

/-- The display's cells, row by row: `d[py][px]` is `D[py][px]` (R37). -/
abbrev Display := Vector (Vector Bool Config.params.dispW) Config.params.dispH

/-- The keypad's flags (R38). -/
abbrev Keypad := Vector Bool Config.params.nKeys

/-- The index of a key (R38). -/
abbrev Key := Fin Config.params.nKeys

/-- A row of the display (R37). -/
abbrev Row := Fin Config.params.dispH

/-- A column of the display (R37). -/
abbrev Column := Fin Config.params.dispW

/-- The general registers (R22). -/
abbrev RegisterFile := Vector (BitVec Config.params.regBits) Config.params.nReg

/-- The whole state: what R20 lists, field by field, and last the two fields of the model's own. -/
structure State where
  /-- `V[0..15]` (R22) -/
  v : RegisterFile
  /-- `I` (R26) -/
  i : BitVec Config.params.iBits
  /-- `pc` (R27) -/
  pc : BitVec Config.params.pcBits
  /-- `stack[0..15]` (R30) -/
  stack : Vector (BitVec Config.params.pcBits) Config.params.stackSlots
  /-- `sp` (R31) -/
  sp : Fin Config.params.stackSlots
  /-- `DT` (R33) -/
  dt : BitVec Config.params.timerBits
  /-- `ST` (R34) -/
  st : BitVec Config.params.timerBits
  /-- `mem[0..4095]` (R35, R50) -/
  mem : Memory
  /-- `D[0..31][0..63]` (R37) -/
  display : Display
  /-- `K[0..15]` (R38) -/
  keypad : Keypad
  /-- `status` and the fault record (R36, R173) -/
  status : Status
  /-- THE MODEL'S OWN, an input (R21, D24): the host's coming operations, oldest first; when none is listed the host invokes
  `execute_cycle` (log entry 7). -/
  schedule : List HostMove
  /-- THE MODEL'S OWN, an input (R21, D23): how many random bytes have been drawn (log entry 6). -/
  rndDraws : Nat
deriving DecidableEq, Repr

/-- The machine right after `reset()` and at power-on (R39, R200, R201). Memory lists nothing: every address reads as reset
leaves it. The two fields of the model's own start empty and at 0 (log entries 6 and 7). -/
def State.reset : State where
  v := Vector.replicate Config.params.nReg 0
  i := 0
  pc := BitVec.ofNat _ Config.params.progBase
  stack := Vector.replicate Config.params.stackSlots 0
  sp := 0
  dt := 0
  st := 0
  mem := []
  display := Vector.replicate Config.params.dispH (Vector.replicate Config.params.dispW false)
  keypad := Vector.replicate Config.params.nKeys false
  status := .running
  schedule := []
  rndDraws := 0

end Sys2Proof.Machine
end

