-- ==== Sys2Proof/Machine/Operands.lean ====
section
/-! DEFINITION. The operand forms: immediates (R72), the one memory operand form "at `I`" (R130) with its range check
(R53), and the values the memory and index instructions compute from a register. -/

namespace Sys2Proof.Machine

/-- `zext_16(nnn)` (R72). -/
def addrToWord (nnn : Addr) : Word := nnn.setWidth _

/-- `zext_16(v)` of a byte (R108, R132, R133). -/
def byteToWord (b : Byte) : Word := b.setWidth _

/-- The operand of `len` bytes at `I` lies in memory: `I + len <= 4096`, without wrap (R53). -/
def operandFits (i : Word) (len : Nat) : Bool := decide (i.toNat + len ≤ Config.params.memSize)

/-- `max(addr, 4096)`: the lowest address an access from `addr` on needs that is not in memory (R170, C11). -/
def lowestOutside (addr : Word) : Word :=
  if addr.toNat ≤ Config.params.memSize then BitVec.ofNat _ Config.params.memSize else addr

/-- How many bytes Fx55 and Fx65 move: `x + 1` (R135, R136). -/
def blockLength (x : RegIndex) : Nat := x.val + 1

/-- The three decimal digits of a byte, hundreds first, a digit a byte (R134). -/
def bcdDigits (b : Byte) : List Byte :=
  [BitVec.ofNat _ (b.toNat / 100), BitVec.ofNat _ (b.toNat / 10 % 10), BitVec.ofNat _ (b.toNat % 10)]

/-- `zext_16(vx) * GLYPH_BYTES`, the address of glyph `vx`, unmasked (R133, D29). -/
def glyphAddress (b : Byte) : Word := byteToWord b * BitVec.ofNat _ Config.params.glyphBytes

end Sys2Proof.Machine
end

