-- ==== Sys2Proof/Machine/Params.lean ====
section
/-! DEFINITION. The parameters the spec names and gives a default (00_scope.md R6): `FONT`, `FONT_BASE`, `ST_TICKS`; and what
memory holds right after reset, which is what an address reads as that the memory does not list (R35, R39). -/

namespace Sys2Proof.Machine

/-- `FONT_BASE` (R35, D9): the address of the font table. -/
def fontBase : Nat := 0

/-- `FONT` (R35, D8), one line a glyph, 0 to 9 and A to F. PRESUMED: the default the spec takes from general
knowledge; unsafe where the software has other glyphs (log entry 2). -/
def font : List (List Byte) :=
  [[0xF0, 0x90, 0x90, 0x90, 0xF0],
   [0x20, 0x60, 0x20, 0x20, 0x70],
   [0xF0, 0x10, 0xF0, 0x80, 0xF0],
   [0xF0, 0x10, 0xF0, 0x10, 0xF0],
   [0x90, 0x90, 0xF0, 0x10, 0x10],
   [0xF0, 0x80, 0xF0, 0x10, 0xF0],
   [0xF0, 0x80, 0xF0, 0x90, 0xF0],
   [0xF0, 0x10, 0x20, 0x40, 0x40]] ++
  [[0xF0, 0x90, 0xF0, 0x90, 0xF0],
   [0xF0, 0x90, 0xF0, 0x10, 0xF0],
   [0xF0, 0x90, 0xF0, 0x90, 0x90],
   [0xE0, 0x90, 0xE0, 0x90, 0xE0],
   [0xF0, 0x80, 0x80, 0x80, 0xF0],
   [0xE0, 0x90, 0x90, 0x90, 0xE0],
   [0xF0, 0x80, 0xF0, 0x80, 0xF0],
   [0xF0, 0x80, 0xF0, 0x80, 0x80]]

/-- `FONT[d][j]`: row `j` of glyph `d`; 0 where there is no such row. -/
def fontByte (d j : Nat) : Byte := (font.getD d []).getD j 0x00#8

/-- What `reset()` leaves at an address: `FONT[d][j]` at `FONT_BASE + 5*d + j`, zero elsewhere (R35, R39). -/
def resetByte (a : Nat) : Byte :=
  if fontBase ≤ a then fontByte ((a - fontBase) / Config.params.glyphBytes) ((a - fontBase) % Config.params.glyphBytes) else 0x00#8

/-- `ST_TICKS` (R160, D6): whether `tick_timer` counts the sound timer down too. PRESUMED: the spec's default, from general
knowledge; unsafe for what the host reads from ST, and for nothing else (log entry 4). -/
def stTicks : Bool := true

end Sys2Proof.Machine
end

