-- ==== Sys2Proof/Machine/Ops.lean ====
section
/-! DEFINITION. The named operations over memory, registers, stack, display, keypad and the cycle; taking a fault, and
`reset()`, the one way out of the halt that a fault leads to. -/

namespace Sys2Proof.Machine

/-- What an instruction or an operation of the machine answers. -/
abbrev Answer := Host.Outcome State Fault Refusal

/-! ## Memory (20_memory.md) -/

/-- `mem[a]`: the listed byte, or what reset leaves there (R58, R35). -/
def Memory.read : Memory → Nat → Byte
  | [], a => resetByte a
  | (k, b) :: rest, a => if a = k then b else Memory.read rest a

/-- Memory without an entry for `a`. -/
def Memory.erase (m : Memory) (a : Nat) : Memory := m.filter (fun c => c.1 != a)

/-- An entry put in its place by rising address. -/
def Memory.insert (a : Nat) (b : Byte) : Memory → Memory
  | [] => [(a, b)]
  | c :: rest => if a < c.1 then (a, b) :: c :: rest else c :: Memory.insert a b rest

/-- `mem[a] <- b`; an entry that reads as reset left it is not listed. -/
def Memory.write (m : Memory) (a : Nat) (b : Byte) : Memory :=
  if b = resetByte a then Memory.erase m a else Memory.insert a b (Memory.erase m a)

/-- `n` bytes from `a` on, in rising address order (R56). -/
def Memory.readBytes (m : Memory) (a : Nat) : Nat → List Byte
  | 0 => []
  | n + 1 => Memory.read m a :: Memory.readBytes m (a + 1) n

/-- Bytes stored from `a` on, in rising address order (R56). -/
def Memory.writeBytes (m : Memory) (a : Nat) : List Byte → Memory
  | [] => m
  | b :: bs => Memory.writeBytes (Memory.write m a b) (a + 1) bs

/-- The canonical form: addresses of the 4096-byte space, strictly rising, and no entry that reads as an unlisted address
would. -/
abbrev Memory.wf (m : Memory) : Prop :=
  m.Pairwise (fun c d => c.1 < d.1) ∧ ∀ c ∈ m, c.1 < Config.params.memSize ∧ c.2 ≠ resetByte c.1

/-! ## General registers (10_state.md) -/

/-- `V[x]` (R22). -/
def State.getV (s : State) (x : RegIndex) : Byte := s.v[x]

/-- `V[x] <- b` (R22). No register is hardwired. -/
def State.setV (s : State) (x : RegIndex) (b : Byte) : State := { s with v := s.v.set x b }

/-- `VF <- 1` if the condition holds, else 0 (R14, R23). -/
def State.setFlag (s : State) (f : Bool) : State := s.setV regF (flagByte f)

/-- The values of `V[0]` to `V[x]`, in order (R135). -/
def State.lowRegisters (s : State) (x : RegIndex) : List Byte := s.v.toList.take (blockLength x)

/-- `V[j] <- mem[a + j]` for the first `n` registers, `j` rising from 0 (R136). -/
def loadRegisters (m : Memory) (a : Nat) : Nat → RegisterFile → RegisterFile
  | 0, v => v
  | n + 1, v => (loadRegisters m a n v).setIfInBounds n (Memory.read m (a + n))

/-- `V[j] <- mem[I + j]` for `j` from 0 to `x`; the registers above `x` stay (R136). -/
def State.loadLowRegisters (s : State) (x : RegIndex) : State :=
  { s with v := loadRegisters s.mem s.i.toNat (blockLength x) s.v }

/-! ## The stack (10_state.md R30 to R32, 41_control.md R101, R103) -/

/-- `stack[sp]`: the return address of the innermost call (R31). -/
def State.top (s : State) : Word := s.stack[s.sp]

/-- `sp <- sp + 1; stack[sp] <- ret` (R103); the caller has checked `sp < 15`. -/
def State.push (s : State) (ret : Word) : State :=
  { s with sp := s.sp + 1, stack := s.stack.set (s.sp + 1).val ret (s.sp + 1).isLt }

/-- `pc <- stack[sp]; sp <- sp - 1` (R101); the caller has checked `sp > 0`. The slot keeps its value. -/
def State.popToPc (s : State) : State := { s with pc := s.top, sp := s.sp - 1 }

/-! ## The cycle (40_cycle.md) -/

/-- The advance step: `pc <- pc + 2` (R93). -/
def State.advance (s : State) : State := { s with pc := s.pc + BitVec.ofNat _ Config.params.instrBytes }

/-- The end of a cycle that completes an instruction: `status <- RUNNING` (R96). -/
def complete (s : State) : Answer := .next { s with status := .running }

/-- A fault is taken (R174, R176): `status <- HALTED` and the record is latched; nothing else changes. The state given has
`pc = a` for a fetch fault and `pc = a + 2` for the faults of an instruction. -/
def raise (record : Fault) (s : State) : Answer := .next { s with status := .halted record }

/-- `reset()` (R200, R202, R178): every piece of state at its reset value, in any status; the only way out of HALTED. The
inputs of the model's own, what the host does next and the count of draws, are not the block's and stay. -/
def State.resetBlock (s : State) : State :=
  { State.reset with schedule := s.schedule, rndDraws := s.rndDraws }

/-- The fetch (R91): the word at `pc`, high byte first, or none where `pc + 1 >= 4096`, taken without wrap. -/
def State.fetch (s : State) : Option Word :=
  if s.pc.toNat + 1 ≥ Config.params.memSize then none
  else some (wordOfBytes (Memory.read s.mem s.pc.toNat) (Memory.read s.mem (s.pc.toNat + 1)))

/-! ## Shapes of instructions -/

/-- An instruction whose whole effect is `V[x] <- b`. -/
def finishV (x : RegIndex) (b : Byte) (s : State) : Answer := complete (s.advance.setV x b)

/-- `V[x] <- b`, then `VF <- f`: with `x = 15` the flag stands (R24, D17). -/
def finishResultThenFlag (x : RegIndex) (b : Byte) (f : Bool) (s : State) : Answer :=
  complete ((s.advance.setV x b).setFlag f)

/-- `VF <- f`, then `V[x] <- b`: with `x = 15` the result stands (R24, D17). -/
def finishFlagThenResult (x : RegIndex) (b : Byte) (f : Bool) (s : State) : Answer :=
  complete ((s.advance.setFlag f).setV x b)

/-- A skip: `pc <- pc + 2` on the advanced `pc` if the condition holds (R100). -/
def finishSkip (c : Bool) (s : State) : Answer :=
  complete (if c then s.advance.advance else s.advance)

/-- A jump: the advanced `pc` is replaced by the target, which nothing checks (R100, R102). -/
def finishJump (target : Word) (s : State) : Answer := complete { s.advance with pc := target }

/-- An instruction with an operand of `len` bytes at `I`: the check of the whole operand comes before every access and every
write (R53, R54, R176); `instr` and `pc` go into the record. -/
def withOperand (instr : Word) (len : Nat) (s : State) (body : State → Answer) : Answer :=
  if operandFits s.i len then body s.advance
  else raise (.memOutOfRange s.pc instr (lowestOutside s.i)) s.advance

/-! ## The display (44_display.md) -/

/-- `D[py][px]` (R37). -/
def Display.cell (d : Display) (py : Row) (px : Column) : Bool := d[py][px]

/-- `D[py][px] <- on` (R141). -/
def Display.setCell (d : Display) (py : Row) (px : Column) (on : Bool) : Display :=
  d.set py (d[py].set px on)

/-- `clear()`: every cell 0 (R142). -/
def Display.clear : Display := Vector.replicate Config.params.dispH (Vector.replicate Config.params.dispW false)

/-- Whether column `c` of a sprite row is set: bit 7 is column 0, the leftmost (R143). PRESUMED: the bit order is the spec's
from general knowledge (D7); unsafe where the software mirrors it (log entry 3). -/
def spriteBit (row : Byte) (c : Nat) : Bool := row.getLsbD (Config.params.spriteW - 1 - c)

/-- One pixel of `draw`: a set bit toggles the cell at its wrapped place, and collides if the cell was on (R143). -/
def drawPixel (x0 y0 r : Nat) (row : Byte) (acc : Display × Bool) (c : Nat) : Display × Bool :=
  if spriteBit row c then
    let px := Fin.ofNat Config.params.dispW (x0 + c)
    let py := Fin.ofNat Config.params.dispH (y0 + r)
    let old := Display.cell acc.1 py px
    (Display.setCell acc.1 py px (!old), acc.2 || old)
  else acc

/-- Row `r` of `draw`: columns 0 to 7 (R143). -/
def drawRow (x0 y0 r : Nat) (row : Byte) (acc : Display × Bool) : Display × Bool :=
  (List.range Config.params.spriteW).foldl (drawPixel x0 y0 r row) acc

/-- The rows of `draw` from row `r` on (R143). -/
def drawRows (x0 y0 : Nat) : Nat → List Byte → Display × Bool → Display × Bool
  | _, [], acc => acc
  | r, row :: rows, acc => drawRows x0 y0 (r + 1) rows (drawRow x0 y0 r row acc)

/-- `draw(x0, y0, rows)`: the new display, and whether a pixel of this call collided (R143, R146, C1). -/
def Display.draw (d : Display) (x0 y0 : Nat) (rows : List Byte) : Display × Bool :=
  drawRows x0 y0 0 rows (d, false)

/-! ## The keypad (45_keypad_timers.md) -/

/-- `is_down(k)`: `K[k]` (R151). -/
def Keypad.isDown (kp : Keypad) (k : Key) : Bool := kp[k]

/-- Some key is down (R154). -/
def Keypad.anyDown (kp : Keypad) : Bool := (List.finRange Config.params.nKeys).any (Keypad.isDown kp)

/-- The smallest index of a key that is down, the spec's default of `KEY_PICK` (R155(b)); 0 where none is. -/
def Keypad.lowestDown (kp : Keypad) : Key :=
  ((List.finRange Config.params.nKeys).find? (Keypad.isDown kp)).getD 0

/-- `KEY_PICK(K)` (R154, R155(b), D11): a key that is down, if one is. Which one is free: the preferred key
`Config.keyPreference` where it is down (log entry 5). -/
def Keypad.pick (kp : Keypad) : Key :=
  if Keypad.isDown kp (Config.keyPreference kp) then Config.keyPreference kp else Keypad.lowestDown kp

/-- A key index of Ex9E or ExA1 is checked, then the skip is decided (R152, R153); `instr` and `pc` go into the record. -/
def finishKeySkip (instr : Word) (key : Byte) (skipOn : Bool → Bool) (s : State) : Answer :=
  if h : key.toNat < Config.params.nKeys then finishSkip (skipOn (Keypad.isDown s.keypad ⟨key.toNat, h⟩)) s
  else raise (.keyIndexOutOfRange s.pc instr key) s.advance

/-! ## The timers (45_keypad_timers.md) -/

/-- A down-counter's tick: it stops at 0 (R160). -/
def countDown (t : Byte) : Byte := if t.toNat > 0 then t - 1#8 else t

/-- `rnd`, the byte of the next draw (R122). -/
def State.rnd (s : State) : Byte := Config.randomByte s.rndDraws

/-- The next draw is another byte, independent of this one (R122). -/
def State.drawn (s : State) : State := { s with rndDraws := s.rndDraws + 1 }

end Sys2Proof.Machine
end

