-- ==== Sys2Proof/Machine/Alu.lean ====
section
/-! DEFINITION. Load, arithmetic, logic, random (42_alu.md). The operand values are those before any write (R12, R92). -/

namespace Sys2Proof.Machine

/-- 6xkk LDI (R111). -/
def execLdi (x : RegIndex) (kk : Byte) (s : State) : Answer := finishV x kk s

/-- 7xkk ADDI (R112): wraps, and never touches VF as a flag. -/
def execAddi (x : RegIndex) (kk : Byte) (s : State) : Answer := finishV x (s.getV x + kk) s

/-- 8xy0 MOV (R113). -/
def execMov (x y : RegIndex) (s : State) : Answer := finishV x (s.getV y) s

/-- 8xy1 OR (R114). -/
def execOr (x y : RegIndex) (s : State) : Answer := finishV x (s.getV x ||| s.getV y) s

/-- 8xy2 AND (R115). -/
def execAnd (x y : RegIndex) (s : State) : Answer := finishV x (s.getV x &&& s.getV y) s

/-- 8xy3 XOR (R116). -/
def execXor (x y : RegIndex) (s : State) : Answer := finishV x (s.getV x ^^^ s.getV y) s

/-- 8xy4 ADD (R117): result first, carry second. -/
def execAdd (x y : RegIndex) (s : State) : Answer :=
  finishResultThenFlag x (s.getV x + s.getV y) (carryOut (s.getV x) (s.getV y)) s

/-- 8xy5 SUB (R118): result first, no-borrow second. -/
def execSub (x y : RegIndex) (s : State) : Answer :=
  finishResultThenFlag x (s.getV x - s.getV y) (noBorrow (s.getV x) (s.getV y)) s

/-- 8xy6 SHR (R119): flag first, result second; `y` is ignored (R79). -/
def execShr (x _y : RegIndex) (s : State) : Answer :=
  finishFlagThenResult x (s.getV x >>> 1) (shiftedOutRight (s.getV x)) s

/-- 8xy7 SUBN (R120): result first, no-borrow second. -/
def execSubn (x y : RegIndex) (s : State) : Answer :=
  finishResultThenFlag x (s.getV y - s.getV x) (noBorrow (s.getV y) (s.getV x)) s

/-- 8xyE SHL (R121): flag first, result second; `y` is ignored (R79). -/
def execShl (x _y : RegIndex) (s : State) : Answer :=
  finishFlagThenResult x (s.getV x <<< 1) (shiftedOutLeft (s.getV x)) s

/-- Cxkk RND (R122): the byte of this draw, masked. -/
def execRnd (x : RegIndex) (kk : Byte) (s : State) : Answer := finishV x (s.rnd &&& kk) s.drawn

end Sys2Proof.Machine
end

