-- ==== Sys2Proof/Machine/Control.lean ====
section
/-! DEFINITION. Control transfer (41_control.md): RET, JP, CALL, SEI, SNEI, SE, SNE, JPV0; and the unassigned words
(40_cycle.md R95). In every meaning of the machine `s.pc` is `a`, the address the instruction was fetched from: the meaning
itself begins with the advance (R93). -/

namespace Sys2Proof.Machine

/-- 00EE RET (R101). -/
def execRet (s : State) : Answer :=
  if s.sp = 0 then raise (.stackUnderflow s.pc (encode .ret)) s.advance
  else complete s.advance.popToPc

/-- 1nnn JP (R102). -/
def execJp (nnn : Addr) (s : State) : Answer := finishJump (addrToWord nnn) s

/-- 2nnn CALL (R103): the pushed value is the advanced `pc`, `a + 2`. -/
def execCall (nnn : Addr) (s : State) : Answer :=
  if s.sp.val = Config.params.spMax then raise (.stackOverflow s.pc (encode (.call nnn))) s.advance
  else finishJump (addrToWord nnn) (s.push s.advance.pc)

/-- 3xkk SEI (R104). -/
def execSei (x : RegIndex) (kk : Byte) (s : State) : Answer := finishSkip (s.getV x == kk) s

/-- 4xkk SNEI (R105). -/
def execSnei (x : RegIndex) (kk : Byte) (s : State) : Answer := finishSkip (s.getV x != kk) s

/-- 5xy0 SE (R106). -/
def execSe (x y : RegIndex) (s : State) : Answer := finishSkip (s.getV x == s.getV y) s

/-- 9xy0 SNE (R107). -/
def execSne (x y : RegIndex) (s : State) : Answer := finishSkip (s.getV x != s.getV y) s

/-- Bnnn JPV0 (R108): no 12-bit mask; the sum is at most 0x10FE. -/
def execJpv0 (nnn : Addr) (s : State) : Answer :=
  finishJump (addrToWord nnn + byteToWord (s.getV 0)) s

/-- An unassigned word (R95): the advance and nothing else. -/
def execUnassigned (_w : Word) (s : State) : Answer := complete s.advance

end Sys2Proof.Machine
end

