-- ==== Sys2Proof/Machine/Graphics.lean ====
section
/-! DEFINITION. The display instructions (44_display.md). -/

namespace Sys2Proof.Machine

/-- 00E0 CLS (R144): VF is not written. -/
def execCls (s : State) : Answer := complete { s.advance with display := Display.clear }

/-- Dxyn DRW (R145): the origin is the register values, VF is the collision of this draw; `n = 0` draws nothing and still
writes VF. -/
def execDrw (x y : RegIndex) (n : Nibble) (s : State) : Answer :=
  withOperand (encode (.drw x y n)) n.toNat s fun t =>
    let drawn := Display.draw t.display (t.getV x).toNat (t.getV y).toNat
      (Memory.readBytes t.mem t.i.toNat n.toNat)
    complete (State.setFlag { t with display := drawn.1 } drawn.2)

end Sys2Proof.Machine
end

