-- ==== Sys2Proof/Machine/IndexMemory.lean ====
section
/-! DEFINITION. The index register and memory (43_index_memory.md). No access changes `I` (R130). -/

namespace Sys2Proof.Machine

/-- Annn LDIX (R131). -/
def execLdix (nnn : Addr) (s : State) : Answer := complete { s.advance with i := addrToWord nnn }

/-- Fx1E ADDIX (R132): wraps at 16 bits, VF is not written. -/
def execAddix (x : RegIndex) (s : State) : Answer :=
  complete { s.advance with i := s.i + byteToWord (s.getV x) }

/-- Fx29 FONT (R133): `vx` is not masked. -/
def execFont (x : RegIndex) (s : State) : Answer :=
  complete { s.advance with i := glyphAddress (s.getV x) }

/-- Fx33 BCD (R134). -/
def execBcd (x : RegIndex) (s : State) : Answer :=
  withOperand (encode (.bcd x)) 3 s fun t =>
    complete { t with mem := Memory.writeBytes t.mem t.i.toNat (bcdDigits (t.getV x)) }

/-- Fx55 STM (R135). -/
def execStm (x : RegIndex) (s : State) : Answer :=
  withOperand (encode (.stm x)) (blockLength x) s fun t =>
    complete { t with mem := Memory.writeBytes t.mem t.i.toNat (t.lowRegisters x) }

/-- Fx65 LDM (R136). -/
def execLdm (x : RegIndex) (s : State) : Answer :=
  withOperand (encode (.ldm x)) (blockLength x) s fun t => complete (t.loadLowRegisters x)

end Sys2Proof.Machine
end

