-- ==== Sys2Proof/Machine/KeypadTimers.lean ====
section
/-! DEFINITION. The key and timer instructions (45_keypad_timers.md). -/

namespace Sys2Proof.Machine

/-- Ex9E SKP (R152): the index is the value of `V[x]`. -/
def execSkp (x : RegIndex) (s : State) : Answer :=
  finishKeySkip (encode (.skp x)) (s.getV x) (fun down => down) s

/-- ExA1 SKNP (R153). -/
def execSknp (x : RegIndex) (s : State) : Answer :=
  finishKeySkip (encode (.sknp x)) (s.getV x) (fun down => !down) s

/-- Fx07 GETDT (R156). -/
def execGetdt (x : RegIndex) (s : State) : Answer := finishV x s.dt s

/-- Fx0A WAITK (R154): with a key down the wait resolves at this cycle; with none `pc` stays `a`, and the next cycle fetches
the same word (D10, D12). -/
def execWaitk (x : RegIndex) (s : State) : Answer :=
  if Keypad.anyDown s.keypad then finishV x (BitVec.ofNat _ (Keypad.pick s.keypad).val) s
  else .next { s with status := .awaitingKey }

/-- Fx15 SETDT (R157). -/
def execSetdt (x : RegIndex) (s : State) : Answer := complete { s.advance with dt := s.getV x }

/-- Fx18 SETST (R158). -/
def execSetst (x : RegIndex) (s : State) : Answer := complete { s.advance with st := s.getV x }

end Sys2Proof.Machine
end

