-- ==== Sys2Proof/Machine/Operations.lean ====
section
/-! DEFINITION. The operations of 00_scope.md R8: `execute_cycle` (40_cycle.md R90) and those of the host. An operation that
may be refused answers `Except.error` and no state (R17, R172). -/

namespace Sys2Proof.Machine

/-- Why the block refuses a host operation (R172): the error its caller gets. -/
inductive HostError where
  /-- a key index outside 0 to 15 (R150) -/
  | keyIndex
  /-- a display coordinate out of range (R141) -/
  | coordinate
  /-- a ROM longer than 3584 bytes (R203) -/
  | romTooLong
deriving DecidableEq, Repr

/-- The three results of `execute_cycle` (R8, D31). -/
inductive CycleResult where
  /-- `OK` -/
  | ok
  /-- `AWAIT_KEY` -/
  | awaitKey
  /-- `FAULT(record)` -/
  | fault (record : Fault)
deriving DecidableEq, Repr

/-- `execute_cycle` (R90): the halt test, the fetch, the decode, then the instruction. While halted nothing changes (R177). A
failed fetch raises `FetchOutOfRange` with `pc` unchanged (R91, R174). -/
def cycle (s : State) : Answer :=
  match s.status with
  | .halted _ => .next s
  | .running | .awaitingKey =>
    match s.fetch with
    | none => raise (.fetchOutOfRange s.pc (lowestOutside s.pc)) s
    | some w => exec (decodeWord w) s

/-- The result of the last cycle, which `status` mirrors (R96, D31). -/
def State.result (s : State) : CycleResult :=
  match s.status with
  | .running => .ok
  | .awaitingKey => .awaitKey
  | .halted record => .fault record

/-- The code of a fault record (R170). -/
def Fault.code : Fault → Nat
  | .fetchOutOfRange _ _ => 1
  | .memOutOfRange _ _ _ => 2
  | .stackOverflow _ _ => 3
  | .stackUnderflow _ _ => 4
  | .keyIndexOutOfRange _ _ _ => 5

/-- `tick_timer()` with `ST_TICKS` as its named argument (R160). -/
def tickTimerWith (soundToo : Bool) (s : State) : State :=
  { s with dt := countDown s.dt, st := if soundToo then countDown s.st else s.st }

/-- `tick_timer()` (R160), in every status (D33). -/
def tickTimer (s : State) : State := tickTimerWith stTicks s

/-- `K[k] <- down`, refused for an index outside 0 to 15 (R150). -/
def setKey (k : Nat) (down : Bool) (s : State) : Except HostError State :=
  if h : k < Config.params.nKeys then .ok { s with keypad := s.keypad.set k down h } else .error .keyIndex

/-- `key_down(k)` (R150). -/
def keyDown (k : Nat) (s : State) : Except HostError State := setKey k true s

/-- `key_up(k)` (R150). -/
def keyUp (k : Nat) (s : State) : Except HostError State := setKey k false s

/-- `is_down(k)` as the host reads it (R8, R151). -/
def isDown (k : Nat) (s : State) : Except HostError Bool :=
  if h : k < Config.params.nKeys then .ok (Keypad.isDown s.keypad ⟨k, h⟩) else .error .keyIndex

/-- `load(bytes)` (R203): the number of bytes and the new state; a ROM that does not fit is refused whole (D18). -/
def loadRom (bytes : List Byte) (s : State) : Except HostError (Nat × State) :=
  if bytes.length > Config.maxRom then .error .romTooLong
  else .ok (bytes.length, { s with mem := Memory.writeBytes s.mem Config.params.progBase bytes })

/-- The display's `get(x, y)` (R141): never wrapped. -/
def displayGet (x y : Nat) (s : State) : Except HostError Bool :=
  if h : x < Config.params.dispW ∧ y < Config.params.dispH then .ok (Display.cell s.display ⟨y, h.2⟩ ⟨x, h.1⟩)
  else .error .coordinate

/-- The display's `set(x, y, on)` (R141): specified, and no move of the host (D34). -/
def displaySet (x y : Nat) (on : Bool) (s : State) : Except HostError State :=
  if h : x < Config.params.dispW ∧ y < Config.params.dispH then
    .ok { s with display := Display.setCell s.display ⟨y, h.2⟩ ⟨x, h.1⟩ on }
  else .error .coordinate

/-- The state after an operation that may be refused: a refused operation changes nothing (R17). -/
def orUnchanged (s : State) : Except HostError State → State
  | .ok t => t
  | .error _ => s

/-- One operation of the host (R8), atomic and between cycles (R7). -/
def perform (m : HostMove) (s : State) : Answer :=
  match m with
  | .executeCycle => cycle s
  | .tickTimer => .next (tickTimer s)
  | .keyDown k => .next (orUnchanged s (keyDown k s))
  | .keyUp k => .next (orUnchanged s (keyUp k s))
  | .load bytes => .next (orUnchanged s ((loadRom bytes s).map Prod.snd))
  | .reset => .next s.resetBlock

/-- The host's next operation is a cycle: the schedule says so, or lists nothing (log entry 7). -/
def State.nextIsCycle (s : State) : Bool :=
  match s.schedule with
  | [] => true
  | .executeCycle :: _ => true
  | .tickTimer :: _ | .keyDown _ :: _ | .keyUp _ :: _ | .load _ :: _ | .reset :: _ => false

/-- The state in which the host's next operation is performed: the schedule has moved on. -/
def State.popSchedule (s : State) : State := { s with schedule := s.schedule.tail }

/-- The host's next operation (log entry 7). -/
def State.nextMove (s : State) : HostMove :=
  match s.schedule with
  | [] => .executeCycle
  | m :: _ => m

/-- `pc`, or the load address where nothing can be fetched at `pc`: where `State.withFetchWord` puts its word. -/
def State.fetchAddress (s : State) : Word :=
  if s.pc.toNat + 1 < Config.params.memSize then s.pc else BitVec.ofNat _ Config.params.progBase

/-- A word placed where the next step fetches it: the bytes in memory, high byte first; `pc` where it can be fetched; the CPU
not halted; the host's next operation a cycle (log entry 12). -/
def State.placeWord (s : State) (w : Word) : State :=
  let a := s.fetchAddress
  { s with
    pc := a
    mem := Memory.writeBytes s.mem a.toNat [highByte w, lowByte w]
    status := match s.status with
      | .halted _ => .running
      | .running => .running
      | .awaitingKey => .awaitingKey
    schedule := if s.nextIsCycle then s.schedule else .executeCycle :: s.schedule }

end Sys2Proof.Machine
end

