-- ==== Sys2Proof/Machine/Step.lean ====
section
/-! DEFINITION. One step of the machine: the host's next operation (R7, R8). -/

namespace Sys2Proof.Machine

/-- One step: the next operation of the schedule, which is `execute_cycle` where the schedule lists nothing. -/
def step (s : State) : Host.Outcome State Fault Refusal := perform s.nextMove s.popSchedule

/-- The state with an instruction placed where the next step fetches it. `w` is a table word of `nbits` bits; the bits above
are zero. -/
def State.withFetchWord (s : State) (nbits w : Nat) : State :=
  s.placeWord (BitVec.ofNat 16 (w % 2 ^ nbits))

end Sys2Proof.Machine
end

