-- ==== Sys2Proof/Safety.lean ====
section
/-! DEFINITION. The terms claims use: when the machine is halted, what an instruction may change (frames), which fault an
instruction meets, and the invariants of the machine. -/

namespace Sys2Proof.Machine

/-! ## Safe runs -/

/-- The CPU is halted (R36, R177); a safe run never is. -/
def State.isHalted (s : State) : Bool :=
  match s.status with
  | .halted _ => true
  | .running | .awaitingKey => false

/-- A cycle completed an instruction and left `pc` at `target` (R96). -/
def Completed (target : Word) (t : State) : Prop := t.pc = target ∧ t.status = .running

/-! ## Frames -/

/-- What may change; what is left out may not. `pc` and `status` may always change: a statement gives them separately. -/
structure MayChange where
  /-- the general registers that may change -/
  v : List RegIndex := []
  /-- `I` may change -/
  i : Bool := false
  /-- `sp` and the stack slots may change -/
  stack : Bool := false
  /-- `DT` may change -/
  dt : Bool := false
  /-- `ST` may change -/
  st : Bool := false
  /-- the first address stored to -/
  memFrom : Nat := 0
  /-- how many bytes are stored -/
  memLen : Nat := 0
  /-- the display may change -/
  display : Bool := false
  /-- the count of random draws may change -/
  rndDraws : Bool := false

/-- From `s` to `t` nothing changes but what `c` lists (and `pc` and `status`). No instruction changes the keypad or the host's
schedule. -/
structure Frame (c : MayChange) (s t : State) : Prop where
  v : ∀ r : RegIndex, r ∉ c.v → t.getV r = s.getV r
  i : c.i = false → t.i = s.i
  stack : c.stack = false → t.sp = s.sp ∧ t.stack = s.stack
  dt : c.dt = false → t.dt = s.dt
  st : c.st = false → t.st = s.st
  mem : ∀ a : Nat, (a < c.memFrom ∨ c.memFrom + c.memLen ≤ a) →
    Memory.read t.mem a = Memory.read s.mem a
  display : c.display = false → t.display = s.display
  rndDraws : c.rndDraws = false → t.rndDraws = s.rndDraws
  keypad : t.keypad = s.keypad
  schedule : t.schedule = s.schedule

/-! ## What each instruction touches, read off the rules -/

/-- The general registers an instruction may write: the last sentences of R25. -/
def writtenRegisters : Instr → List RegIndex
  | .ldi x _ | .addi x _ | .rnd x _ => [x]
  | .mov x _ | .or x _ | .and x _ | .xor x _ => [x]
  | .add x _ | .sub x _ | .shr x _ | .subn x _ | .shl x _ => [x, regF]
  | .getdt x | .waitk x => [x]
  | .ldm x => (List.finRange 16).filter (fun r => decide (r ≤ x))
  | .drw _ _ _ => [regF]
  | .cls | .ret | .jp _ | .call _ | .sei _ _ | .snei _ _ | .se _ _ | .sne _ _ => []
  | .ldix _ | .jpv0 _ | .skp _ | .sknp _ | .setdt _ | .setst _ | .addix _ | .font _ => []
  | .bcd _ | .stm _ | .unassigned _ => []

/-- How many bytes an instruction stores at `I` (R56). -/
def storedLength : Instr → Nat
  | .bcd _ => 3
  | .stm x => blockLength x
  | .cls | .ret | .jp _ | .call _ | .sei _ _ | .snei _ _ | .se _ _ | .sne _ _ => 0
  | .ldi _ _ | .addi _ _ | .rnd _ _ | .mov _ _ | .or _ _ | .and _ _ | .xor _ _ => 0
  | .add _ _ | .sub _ _ | .shr _ _ | .subn _ _ | .shl _ _ => 0
  | .ldix _ | .jpv0 _ | .drw _ _ _ | .skp _ | .sknp _ | .getdt _ | .waitk _ => 0
  | .setdt _ | .setst _ | .addix _ | .font _ | .ldm _ | .unassigned _ => 0

/-- Where an instruction that raises no fault leaves `pc` (the last sentence of R27); `s.pc` is its own address. -/
def pcAfter (i : Instr) (s : State) : Word :=
  let skip (c : Prop) [Decidable c] : Word := if c then s.pc + 4#16 else s.pc + 2#16
  match i with
  | .sei x kk => skip (s.getV x = kk)
  | .snei x kk => skip (s.getV x ≠ kk)
  | .se x y => skip (s.getV x = s.getV y)
  | .sne x y => skip (s.getV x ≠ s.getV y)
  | .skp x => skip (∃ k : Fin 16, k.val = (s.getV x).toNat ∧ Keypad.isDown s.keypad k = true)
  | .sknp x => skip (∃ k : Fin 16, k.val = (s.getV x).toNat ∧ Keypad.isDown s.keypad k = false)
  | .jp nnn | .call nnn => addrToWord nnn
  | .jpv0 nnn => addrToWord nnn + byteToWord (s.getV 0)
  | .ret => s.top
  | .waitk _ => if Keypad.anyDown s.keypad then s.pc + 2#16 else s.pc
  | .cls | .ldi _ _ | .addi _ _ | .mov _ _ | .or _ _ | .and _ _ | .xor _ _ => s.pc + 2#16
  | .add _ _ | .sub _ _ | .shr _ _ | .subn _ _ | .shl _ _ | .ldix _ | .rnd _ _ => s.pc + 2#16
  | .drw _ _ _ | .getdt _ | .setdt _ | .setst _ | .addix _ | .font _ => s.pc + 2#16
  | .bcd _ | .stm _ | .ldm _ | .unassigned _ => s.pc + 2#16

/-- The fault record an instruction raises, if it raises one: the table of R170, with `max(I, 4096)` as R170 writes it. -/
def faultOf (i : Instr) (s : State) : Option Fault :=
  let outside (len : Nat) : Option Fault :=
    if s.i.toNat + len > 4096 then
      some (.memOutOfRange s.pc (encode i) (BitVec.ofNat 16 (max s.i.toNat 4096)))
    else none
  let badKey (x : RegIndex) : Option Fault :=
    if (s.getV x).toNat > 15 then some (.keyIndexOutOfRange s.pc (encode i) (s.getV x)) else none
  match i with
  | .drw _ _ n => outside n.toNat
  | .bcd _ => outside 3
  | .stm x | .ldm x => outside (x.val + 1)
  | .call _ => if s.sp.val = 15 then some (.stackOverflow s.pc (encode i)) else none
  | .ret => if s.sp.val = 0 then some (.stackUnderflow s.pc 0x00EE#16) else none
  | .skp x | .sknp x => badKey x
  | .cls | .jp _ | .sei _ _ | .snei _ _ | .se _ _ | .sne _ _ | .ldi _ _ | .addi _ _ => none
  | .mov _ _ | .or _ _ | .and _ _ | .xor _ _ | .add _ _ | .sub _ _ | .shr _ _ => none
  | .subn _ _ | .shl _ _ | .ldix _ | .jpv0 _ | .rnd _ _ | .getdt _ | .waitk _ => none
  | .setdt _ | .setst _ | .addix _ | .font _ | .unassigned _ => none

/-! ## The display, pixel by pixel -/

/-- Pixel `(r, c)` of a sprite is set and lands on cell `(py, px)` when drawn at the origin `(x0, y0)`: the wrap of R143, with
bit 7 of a row as column 0 (D7). -/
def pixelHits (x0 y0 : Nat) (rows : List Byte) (py : Fin 32) (px : Fin 64)
    (r c : Nat) : Prop :=
  c < 8 ∧ (∃ row : Byte, rows[r]? = some row ∧ row.getLsbD (7 - c) = true) ∧
    (x0 + c) % 64 = px.val ∧ (y0 + r) % 32 = py.val

/-- Some pixel of the sprite lands on the cell (R143). -/
def spriteCovers (x0 y0 : Nat) (rows : List Byte) (py : Fin 32) (px : Fin 64) : Prop :=
  ∃ r c : Nat, pixelHits x0 y0 rows py px r c

/-! ## Invariants -/

/-- R29: `pc` is at most 0x10FE and a return address at most 4096, so `pc` never wraps; R32: slot 0 keeps its reset value. -/
def PcBounded (s : State) : Prop :=
  s.pc.toNat ≤ 0x10FE ∧ (∀ k : Fin 16, (s.stack[k]).toNat ≤ 4096) ∧
    s.stack[(0 : Fin 16)] = 0x0000#16

/-- Memory keeps its canonical form (log entry 1). -/
def MemCanonical (s : State) : Prop := Memory.wf s.mem

end Sys2Proof.Machine
end

