-- ==== Sys2Proof/Certificates/Slice0/Obligations.lean ====
section
/-! DEFINITION. The statements for the provers, from the numbered rules of spec/. Each docstring names the rule; where a clause
rests on a decision the spec marks as its own (D<n>) or on the model's choice, the docstring says so. In a statement about
an instruction `s.pc` is the instruction's own address `a`. -/

open Sys2Proof Sys2Proof.Machine

/-! ## Encoding -/

/-- Words of every family, written out from the encodings of R76 (vectors ENC-1 to ENC-20 of 95_test_vectors.md), decode to
what they stand for. -/
def Obligations.SampleWordsDecode : Prop :=
  (decodeWord 0x00E0#16 = .cls ∧ decodeWord 0x00EE#16 = .ret ∧ decodeWord 0x10E0#16 = .jp 0x0E0#12 ∧
    decodeWord 0x5AB0#16 = .se 10 11 ∧ decodeWord 0xB2FE#16 = .jpv0 0x2FE#12) ∧
  (decodeWord 0x8AB4#16 = .add 10 11 ∧ decodeWord 0x8ABE#16 = .shl 10 11 ∧ decodeWord 0xCFFF#16 = .rnd 15 0xFF#8) ∧
  (decodeWord 0xD123#16 = .drw 1 2 0x3#4 ∧ decodeWord 0xE19E#16 = .skp 1 ∧ decodeWord 0xF31E#16 = .addix 3 ∧
    decodeWord 0xFF65#16 = .ldm 15) ∧
  (decodeWord 0x00E1#16 = .unassigned 0x00E1#16 ∧ decodeWord 0x0000#16 = .unassigned 0x0000#16 ∧
    decodeWord 0x8AB8#16 = .unassigned 0x8AB8#16 ∧ decodeWord 0x8ABF#16 = .unassigned 0x8ABF#16 ∧
    decodeWord 0x5FFF#16 = .unassigned 0x5FFF#16 ∧ decodeWord 0x9AB1#16 = .unassigned 0x9AB1#16 ∧
    decodeWord 0xE19F#16 = .unassigned 0xE19F#16 ∧ decodeWord 0xF375#16 = .unassigned 0xF375#16) ∧
  decodeBytes [0x8A#8, 0xB4#8, 0x12#8] = .ok (.add 10 11, [0x12#8])

/-- DECODE AND ENCODE AGREE (R70, R71, R76, R77): for every well-formed instruction, with every operand at every value, the
decoder reads it back from its bytes and leaves the bytes after it. -/
def Obligations.DecodeUndoesEncode : Prop :=
  ∀ (i : Instr) (rest : List Byte), i.wellFormed = true →
    decodeBytes (encodeBytes i ++ rest) = .ok (i, rest)

/-- Every word decodes to a well-formed instruction whose word it is: each word has one meaning and no bit of it is
dropped (R71, R74, R77). -/
def Obligations.EncodeUndoesDecode : Prop :=
  ∀ w : Word, encode (decodeWord w) = w ∧ (decodeWord w).wellFormed = true

/-- R74, against the mask and match of the 34 rows of R76: a word selects the instruction of the row it satisfies, no word
satisfies two rows, and a word that satisfies none is unassigned. -/
def Obligations.EachWordSelectsItsRow : Prop :=
  ∀ w : Word,
    (∀ row ∈ opcodeRows, rowMatches w row = true ↔ rowOf (decodeWord w) = row) ∧
    (∀ row ∈ opcodeRows, ∀ row' ∈ opcodeRows, rowMatches w row = true → rowMatches w row' = true → row = row') ∧
    ((∀ row ∈ opcodeRows, rowMatches w row = false) ↔ decodeWord w = .unassigned w)

/-- The unassigned words are exactly those R77 enumerates, and exactly those that match no row. -/
def Obligations.UnassignedWordsAsEnumerated : Prop :=
  ∀ w : Word,
    (decodeWord w = .unassigned w ↔ isUnassignedWord w = true) ∧
    (isUnassignedWord w = true ↔ ∀ row ∈ opcodeRows, rowMatches w row = false)

/-! ## The cycle -/

/-- A STEP RUNS THE DECODED INSTRUCTION (R90, R92, R94). The CPU is not halted, the host's next operation is a cycle, the fetch
is in range, and the two bytes at `pc` decode to `i`: the step is `exec i`, and around it nothing but the schedule, the
model's own input, moving on (log entry 7). The advance of R93 is part of each meaning. -/
def Obligations.StepRunsDecodedInstruction : Prop :=
  ∀ (s : State) (i : Instr), s.isHalted = false → s.nextIsCycle = true → s.pc.toNat + 1 < 4096 →
    decodeBytes (Memory.readBytes s.mem s.pc.toNat 2) = .ok (i, []) →
    i.wellFormed = true ∧ step s = exec i s.popSchedule

/-- R91: a fetch at `a` with `a + 1 >= 4096` raises `FetchOutOfRange` with `at = a` and changes nothing but the status and
the record; otherwise the word is `mem[a] * 256 + mem[a+1]` and is dispatched. The record's `addr` is R170's (the spec's
decision D14); that a fault is a next state is the model's form (log entry 8). -/
def Obligations.FetchBigEndianOrFault : Prop :=
  ∀ s : State, s.isHalted = false →
    (s.pc.toNat + 1 ≥ 4096 →
      cycle s = .next { s with
        status := .halted (.fetchOutOfRange s.pc (BitVec.ofNat 16 (max s.pc.toNat 4096))) }) ∧
    (s.pc.toNat + 1 < 4096 →
      ∃ w : Word, w.toNat = (Memory.read s.mem s.pc.toNat).toNat * 256 +
          (Memory.read s.mem (s.pc.toNat + 1)).toNat ∧
        cycle s = exec (decodeWord w) s)

/-- R177 (the spec's decision D16): any number of cycles in the halted state changes nothing, `pc` and record included; only
the schedule, the model's own, moves on. -/
def Obligations.HaltedCyclesChangeNothing : Prop :=
  ∀ (n : Nat) (s : State), s.isHalted = true → (∀ m ∈ s.schedule, m = .executeCycle) →
    Host.Core.run Sys2Proof.core n s = .next { s with schedule := s.schedule.drop n }

/-- R178 (with D16, D33): whatever the host does but `reset()`, the CPU stays halted with the same record, and registers, stack,
`pc` and display stay; `reset()` ends the halt. -/
def Obligations.HaltLeftOnlyByReset : Prop :=
  ∀ s : State, s.isHalted = true →
    (s.nextMove ≠ .reset → ∃ t, step s = .next t ∧ t.status = s.status ∧ t.pc = s.pc ∧ t.v = s.v ∧
      t.i = s.i ∧ t.sp = s.sp ∧ t.stack = s.stack ∧ t.display = s.display) ∧
    (s.nextMove = .reset → ∃ t, step s = .next t ∧ t.status = .running ∧ t.pc = 0x200#16)

/-- No instruction and no operation of the host ends the machine: every `exec` and every `step` answers a next state. The
model takes the faults of R174 as next states (log entry 8). -/
def Obligations.EveryStepGoesOn : Prop :=
  (∀ (i : Instr) (s : State), ∃ t, exec i s = .next t) ∧ (∀ s : State, ∃ t, step s = .next t)

/-! ## Rules about the whole machine -/

/-- The last sentence of R27: where every instruction that does not fault leaves `pc`. -/
def Obligations.PcAfterEveryInstruction : Prop :=
  ∀ (i : Instr) (s t : State), exec i s = .next t → t.isHalted = false → t.pc = pcAfter i s

/-- R25: no instruction writes a general register but those R25 lists for it; VF is a flag only of 8xy4 to 8xy7, 8xyE and
Dxyn. -/
def Obligations.RegisterWritersAsListed : Prop :=
  ∀ (i : Instr) (s t : State) (r : RegIndex), exec i s = .next t → r ∉ writtenRegisters i →
    t.getV r = s.getV r

/-- R56: Fx33 stores 3 bytes and Fx55 `x + 1` bytes at `I`; no other instruction stores, so every other byte reads as before. -/
def Obligations.MemoryWritersAsListed : Prop :=
  ∀ (i : Instr) (s t : State) (a : Nat), exec i s = .next t →
    (a < s.i.toNat ∨ s.i.toNat + storedLength i ≤ a) → Memory.read t.mem a = Memory.read s.mem a

/-- R94: no instruction changes DT or ST except Fx15 and Fx18, and none changes the keypad. -/
def Obligations.TimersAndKeypadWriters : Prop :=
  ∀ (i : Instr) (s t : State), exec i s = .next t →
    t.keypad = s.keypad ∧ ((∀ x, i ≠ .setdt x) → t.dt = s.dt) ∧ ((∀ x, i ≠ .setst x) → t.st = s.st)

/-- R30, R31, R32: slots are written only by 2nnn, `sp` only by 2nnn and 00EE, and slot 0 by nothing. -/
def Obligations.StackWriters : Prop :=
  ∀ (i : Instr) (s t : State), exec i s = .next t →
    ((∀ nnn, i ≠ .call nnn) → t.stack = s.stack) ∧
    ((∀ nnn, i ≠ .call nnn) → i ≠ .ret → t.sp = s.sp) ∧
    t.stack[(0 : Fin 16)] = s.stack[(0 : Fin 16)]

/-- R26 and R37: `I` is written only by Annn, Fx1E and Fx29, the display only by 00E0 and Dxyn. -/
def Obligations.IndexAndDisplayWriters : Prop :=
  ∀ (i : Instr) (s t : State), exec i s = .next t →
    ((∀ nnn, i ≠ .ldix nnn) → (∀ x, i ≠ .addix x) → (∀ x, i ≠ .font x) → t.i = s.i) ∧
    (i ≠ .cls → (∀ x y n, i ≠ .drw x y n) → t.display = s.display)

/-- R170, R171, R174, R176 (with the spec's decisions D13, D14, D15): an instruction faults exactly under the condition of R170's
table; then `pc` is `a + 2`, the record is the table's, and NOTHING else changes. -/
def Obligations.FaultsExactlyAsListed : Prop :=
  ∀ (i : Instr) (s : State),
    (faultOf i s = none → ∃ t, exec i s = .next t ∧ t.isHalted = false) ∧
    (∀ r, faultOf i s = some r → exec i s = .next { s with pc := s.pc + 2#16, status := .halted r })

/-- R96 (names D31): the result of a completed cycle is OK, AWAIT_KEY exactly when Fx0A finds no key down, or the fault. -/
def Obligations.ResultMirrorsStatus : Prop :=
  ∀ (i : Instr) (s t : State), exec i s = .next t →
    (∀ r, t.result = .fault r ↔ faultOf i s = some r) ∧
    (t.result = .awaitKey ↔ (∃ x, i = .waitk x) ∧ Keypad.anyDown s.keypad = false)

/-- R34: no rule of the CPU depends on the value of ST. Two states that differ in ST alone run alike. -/
def Obligations.SoundTimerIsNeverRead : Prop :=
  ∀ (i : Instr) (s t : State) (b : Byte), exec i s = .next t →
    exec i { s with st := b } =
      .next { t with st := match i with
        | .setst _ => t.st
        | _ => b }

/-- R36: no instruction reads `status`, and AWAITING_KEY carries no information: the next cycle behaves as from RUNNING. -/
def Obligations.StatusIsNeverRead : Prop :=
  (∀ (i : Instr) (s : State) (r : Status), exec i { s with status := r } = exec i s) ∧
  (∀ s : State, cycle { s with status := .awaitingKey } = cycle { s with status := .running })

/-! ## Invariants -/

/-- The reset state meets both invariants below. -/
def Obligations.ResetMeetsInvariants : Prop := MemCanonical State.reset ∧ PcBounded State.reset

/-- AN INVARIANT OF EVERY STEP, the host's operations included: memory keeps its canonical form, so that equal memories are
equal data, and no store leaves the 4096 bytes (R53; the form is the model's, log entry 1). -/
def Obligations.StepKeepsMemoryCanonical : Prop :=
  ∀ s t : State, MemCanonical s → step s = .next t → MemCanonical t

/-- AN INVARIANT OF EVERY STEP, the host's operations included (R29, R32): `pc` is at most 0x10FE, every return address at most
4096, slot 0 is 0. So `pc` never wraps. -/
def Obligations.StepKeepsPcBounded : Prop :=
  ∀ s t : State, PcBounded s → step s = .next t → PcBounded t

/-! ## Reset -/

/-- R39, R200, R201: after `reset()` from ANY state, and at power-on, the state is the table's. The values of `I`, `sp`, ST, the
display, the keypad and the status are the spec's decisions D3 to D6 and D16; the bytes of FONT are its default D8. -/
def Obligations.ResetLeavesTheTable : Prop :=
  (∀ s : State, s.nextMove = .reset → step s = .next s.popSchedule.resetBlock) ∧
  ∀ t : State, (t = State.reset ∨ ∃ s : State, t = s.resetBlock) →
    ((∀ r, t.getV r = 0x00#8) ∧ t.i = 0x0000#16 ∧ t.pc = 0x0200#16 ∧
      (∀ k : Fin 16, t.stack[k] = 0x0000#16) ∧ t.sp = 0 ∧ t.dt = 0x00#8 ∧ t.st = 0x00#8) ∧
    (∀ d j : Nat, d < 16 → j < 5 → Memory.read t.mem (5 * d + j) = fontByte d j) ∧
    (∀ a : Nat, 0x050 ≤ a → Memory.read t.mem a = 0x00#8) ∧
    (∀ py px, Display.cell t.display py px = false) ∧ (∀ k, Keypad.isDown t.keypad k = false) ∧
    t.status = .running

/-! ## Load, arithmetic, logic, random (42_alu.md) -/

/-- R111: 6xkk writes `kk` to `V[x]`, and nothing else. -/
def Obligations.LdiLoadsImmediate : Prop :=
  ∀ (x : RegIndex) (kk : Byte) (s : State), ∃ t, exec (.ldi x kk) s = .next t ∧
    Completed (s.pc + 2#16) t ∧ t.getV x = kk ∧ Frame { v := [x] } s t

/-- R112: 7xkk adds modulo 256 and writes no flag: VF changes only as the destination. -/
def Obligations.AddiWrapsWithoutFlag : Prop :=
  ∀ (x : RegIndex) (kk : Byte) (s : State), ∃ t, exec (.addi x kk) s = .next t ∧
    Completed (s.pc + 2#16) t ∧ (t.getV x).toNat = ((s.getV x).toNat + kk.toNat) % 256 ∧
    Frame { v := [x] } s t

/-- R113: 8xy0 copies `V[y]` to `V[x]`. -/
def Obligations.MovCopiesRegister : Prop :=
  ∀ (x y : RegIndex) (s : State), ∃ t, exec (.mov x y) s = .next t ∧
    Completed (s.pc + 2#16) t ∧ t.getV x = s.getV y ∧ Frame { v := [x] } s t

/-- R114, R115, R116: 8xy1, 8xy2 and 8xy3 are the bitwise operations; VF is not written. -/
def Obligations.LogicIsBitwiseWithoutFlag : Prop :=
  ∀ (x y : RegIndex) (s : State),
    (∃ t, exec (.or x y) s = .next t ∧ Completed (s.pc + 2#16) t ∧ Frame { v := [x] } s t ∧
      ∀ k, (t.getV x).getLsbD k = ((s.getV x).getLsbD k || (s.getV y).getLsbD k)) ∧
    (∃ t, exec (.and x y) s = .next t ∧ Completed (s.pc + 2#16) t ∧ Frame { v := [x] } s t ∧
      ∀ k, (t.getV x).getLsbD k = ((s.getV x).getLsbD k && (s.getV y).getLsbD k)) ∧
    (∃ t, exec (.xor x y) s = .next t ∧ Completed (s.pc + 2#16) t ∧ Frame { v := [x] } s t ∧
      ∀ k, (t.getV x).getLsbD k = ((s.getV x).getLsbD k ^^ (s.getV y).getLsbD k))

/-- R117: 8xy4 writes the sum modulo 256, then VF = 1 exactly when the sum exceeds 255; with `x = 15` the flag stands (the
order of the two writes: R24, the spec's decision D17, log entry 9). -/
def Obligations.AddWritesSumThenCarry : Prop :=
  ∀ (x y : RegIndex) (s : State), ∃ t, exec (.add x y) s = .next t ∧ Completed (s.pc + 2#16) t ∧
    (x ≠ regF → (t.getV x).toNat = ((s.getV x).toNat + (s.getV y).toNat) % 256) ∧
    t.getV regF = (if (s.getV x).toNat + (s.getV y).toNat > 255 then 0x01#8 else 0x00#8) ∧
    Frame { v := [x, regF] } s t

/-- R118: 8xy5 writes the difference modulo 256, then VF = 1 exactly when `vx >= vy`; with `x = 15` the flag stands (D17, log
entry 9). -/
def Obligations.SubWritesDifferenceThenNoBorrow : Prop :=
  ∀ (x y : RegIndex) (s : State), ∃ t, exec (.sub x y) s = .next t ∧ Completed (s.pc + 2#16) t ∧
    (x ≠ regF → ((t.getV x).toNat : Int) = (((s.getV x).toNat : Int) - ((s.getV y).toNat : Int)) % 256) ∧
    t.getV regF = (if (s.getV x).toNat ≥ (s.getV y).toNat then 0x01#8 else 0x00#8) ∧
    Frame { v := [x, regF] } s t

/-- R120: 8xy7 writes `vy - vx` modulo 256, then VF = 1 exactly when `vy >= vx`; with `x = 15` the flag stands (D17, log
entry 9). -/
def Obligations.SubnWritesReverseDifferenceThenNoBorrow : Prop :=
  ∀ (x y : RegIndex) (s : State), ∃ t, exec (.subn x y) s = .next t ∧ Completed (s.pc + 2#16) t ∧
    (x ≠ regF → ((t.getV x).toNat : Int) = (((s.getV y).toNat : Int) - ((s.getV x).toNat : Int)) % 256) ∧
    t.getV regF = (if (s.getV y).toNat ≥ (s.getV x).toNat then 0x01#8 else 0x00#8) ∧
    Frame { v := [x, regF] } s t

/-- R119: 8xy6 writes bit 0 to VF, then `vx >> 1` to `V[x]`, whatever `y` is; with `x = 15` the shifted value stands (D17,
log entry 9). -/
def Obligations.ShrWritesBitThenHalf : Prop :=
  ∀ (x y : RegIndex) (s : State), ∃ t, exec (.shr x y) s = .next t ∧ Completed (s.pc + 2#16) t ∧
    (x ≠ regF → (t.getV regF).toNat = (s.getV x).toNat % 2) ∧
    (t.getV x).toNat = (s.getV x).toNat / 2 ∧ Frame { v := [x, regF] } s t

/-- R121: 8xyE writes bit 7 to VF, then `vx * 2` modulo 256 to `V[x]`, whatever `y` is; with `x = 15` the shifted value
stands (D17, log entry 9). -/
def Obligations.ShlWritesBitThenDouble : Prop :=
  ∀ (x y : RegIndex) (s : State), ∃ t, exec (.shl x y) s = .next t ∧ Completed (s.pc + 2#16) t ∧
    (x ≠ regF → (t.getV regF).toNat = (s.getV x).toNat / 128) ∧
    (t.getV x).toNat = (s.getV x).toNat * 2 % 256 ∧ Frame { v := [x, regF] } s t

/-- R122: Cxkk writes a byte AND `kk`, so no bit `kk` lacks. The byte is free; that it is the one of the model's draw counter, and
that the counter moves on, is the model's form of the input `rnd` (log entry 6). The statement holds for every value of
`Config.randomByte`. -/
def Obligations.RndMasksAFreeByte : Prop :=
  ∀ (x : RegIndex) (kk : Byte) (s : State), ∃ t, exec (.rnd x kk) s = .next t ∧
    Completed (s.pc + 2#16) t ∧ t.rndDraws = s.rndDraws + 1 ∧
    (∀ k, (t.getV x).getLsbD k = ((Config.randomByte s.rndDraws).getLsbD k && kk.getLsbD k)) ∧
    Frame { v := [x], rndDraws := true } s t

/-! ## Control transfer (41_control.md) -/

/-- R104, R105: 3xkk skips exactly when `vx = kk`, 4xkk exactly when `vx != kk`. -/
def Obligations.SkipsOnImmediate : Prop :=
  ∀ (x : RegIndex) (kk : Byte) (s : State),
    (∃ t, exec (.sei x kk) s = .next t ∧ Frame {} s t ∧
      Completed (if s.getV x = kk then s.pc + 4#16 else s.pc + 2#16) t) ∧
    (∃ t, exec (.snei x kk) s = .next t ∧ Frame {} s t ∧
      Completed (if s.getV x = kk then s.pc + 2#16 else s.pc + 4#16) t)

/-- R106, R107: 5xy0 skips exactly when `vx = vy`, 9xy0 exactly when `vx != vy`. -/
def Obligations.SkipsOnRegisters : Prop :=
  ∀ (x y : RegIndex) (s : State),
    (∃ t, exec (.se x y) s = .next t ∧ Frame {} s t ∧
      Completed (if s.getV x = s.getV y then s.pc + 4#16 else s.pc + 2#16) t) ∧
    (∃ t, exec (.sne x y) s = .next t ∧ Frame {} s t ∧
      Completed (if s.getV x = s.getV y then s.pc + 2#16 else s.pc + 4#16) t)

/-- R102, R108: 1nnn leaves `nnn` in `pc`, Bnnn leaves `nnn + V[0]`, with no wrap and no mask (no mask: the spec's decision
D19). -/
def Obligations.JumpsGoToTheirTarget : Prop :=
  ∀ (nnn : Addr) (s : State),
    (∃ t, exec (.jp nnn) s = .next t ∧ t.pc.toNat = nnn.toNat ∧ t.status = .running ∧ Frame {} s t) ∧
    (∃ t, exec (.jpv0 nnn) s = .next t ∧ t.pc.toNat = nnn.toNat + (s.getV 0).toNat ∧
      t.status = .running ∧ Frame {} s t)

/-- R103: with `sp < 15`, 2nnn raises `sp` by one, writes `a + 2` to that slot and no other, and goes to `nnn`; with
`sp = 15` it raises `StackOverflow` and leaves `sp` and the stack (the record and the state after a fault: the spec's
decisions D14 and D15, log entries 8 and 9). -/
def Obligations.CallPushesReturnAddress : Prop :=
  ∀ (nnn : Addr) (s : State),
    (s.sp.val < 15 → ∃ t, exec (.call nnn) s = .next t ∧ t.pc.toNat = nnn.toNat ∧ t.status = .running ∧
      t.sp.val = s.sp.val + 1 ∧ t.stack[t.sp] = s.pc + 2#16 ∧
      (∀ k : Fin 16, k ≠ t.sp → t.stack[k] = s.stack[k]) ∧ Frame { stack := true } s t) ∧
    (s.sp.val = 15 → ∃ t, exec (.call nnn) s = .next t ∧ t.pc = s.pc + 2#16 ∧
      t.status = .halted (.stackOverflow s.pc (encode (.call nnn))) ∧ Frame {} s t)

/-- R101: with `sp > 0`, 00EE goes to `stack[sp]` and lowers `sp` by one, and the slots keep their values; with `sp = 0` it
raises `StackUnderflow` and leaves `sp` and the stack (D14, D15, log entries 8 and 9). -/
def Obligations.RetPopsReturnAddress : Prop :=
  ∀ s : State,
    (0 < s.sp.val → ∃ t, exec .ret s = .next t ∧ Completed (s.stack[s.sp]) t ∧
      t.sp.val + 1 = s.sp.val ∧ t.stack = s.stack ∧ Frame { stack := true } s t) ∧
    (s.sp.val = 0 → ∃ t, exec .ret s = .next t ∧ t.pc = s.pc + 2#16 ∧
      t.status = .halted (.stackUnderflow s.pc 0x00EE#16) ∧ Frame {} s t)

/-- The round trip of R103's corner cases: a RET run, from wherever, with the stack as the CALL left it goes to the instruction
after the call and restores `sp`. -/
def Obligations.CallThenRetReturns : Prop :=
  ∀ (nnn : Addr) (s : State), s.sp.val < 15 →
    ∃ t, exec (.call nnn) s = .next t ∧
      ∀ u : State, u.sp = t.sp → u.stack = t.stack →
        ∃ r, exec .ret u = .next r ∧ Completed (s.pc + 2#16) r ∧ r.sp = s.sp

/-- R95: an unassigned word advances `pc` by 2 and mutates nothing else. -/
def Obligations.UnassignedWordIsNoOp : Prop :=
  ∀ (w : Word) (s : State),
    exec (.unassigned w) s = .next { s with pc := s.pc + 2#16, status := .running }

/-! ## The index register and memory (43_index_memory.md) -/

/-- R131, R132, R133: Annn writes `nnn`, Fx1E adds `vx` modulo 65536, Fx29 writes `5 * vx` unmasked; none writes VF. -/
def Obligations.IndexRegisterWrites : Prop :=
  (∀ (nnn : Addr) (s : State), ∃ t, exec (.ldix nnn) s = .next t ∧ Completed (s.pc + 2#16) t ∧
    t.i.toNat = nnn.toNat ∧ Frame { i := true } s t) ∧
  (∀ (x : RegIndex) (s : State), ∃ t, exec (.addix x) s = .next t ∧ Completed (s.pc + 2#16) t ∧
    t.i.toNat = (s.i.toNat + (s.getV x).toNat) % 65536 ∧ Frame { i := true } s t) ∧
  (∀ (x : RegIndex) (s : State), ∃ t, exec (.font x) s = .next t ∧ Completed (s.pc + 2#16) t ∧
    t.i.toNat = 5 * (s.getV x).toNat ∧ Frame { i := true } s t)

/-- R134: Fx33 stores the hundreds, tens and ones of `vx` at `I`, `I + 1`, `I + 2`, and no other byte; it faults, storing
nothing, exactly when `I > 4093` (D14, D15, log entries 8 and 9). -/
def Obligations.BcdStoresDigits : Prop :=
  ∀ (x : RegIndex) (s : State),
    (s.i.toNat ≤ 4093 → ∃ t, exec (.bcd x) s = .next t ∧ Completed (s.pc + 2#16) t ∧
      (Memory.read t.mem s.i.toNat).toNat = (s.getV x).toNat / 100 ∧
      (Memory.read t.mem (s.i.toNat + 1)).toNat = (s.getV x).toNat / 10 % 10 ∧
      (Memory.read t.mem (s.i.toNat + 2)).toNat = (s.getV x).toNat % 10 ∧
      Frame { memFrom := s.i.toNat, memLen := 3 } s t) ∧
    (s.i.toNat > 4093 → ∃ t, exec (.bcd x) s = .next t ∧ t.pc = s.pc + 2#16 ∧
      t.status = .halted (.memOutOfRange s.pc (encode (.bcd x)) (BitVec.ofNat 16 (max s.i.toNat 4096))) ∧
      Frame {} s t)

/-- R135: Fx55 stores `V[j]` at `I + j` for `j` from 0 to `x`, and no other byte; it faults, storing nothing, exactly when
`I + x > 4095` (D14, D15, log entries 8 and 9). -/
def Obligations.StmStoresLowRegisters : Prop :=
  ∀ (x : RegIndex) (s : State),
    (s.i.toNat + x.val ≤ 4095 → ∃ t, exec (.stm x) s = .next t ∧ Completed (s.pc + 2#16) t ∧
      (∀ j : RegIndex, j ≤ x → Memory.read t.mem (s.i.toNat + j.val) = s.getV j) ∧
      Frame { memFrom := s.i.toNat, memLen := x.val + 1 } s t) ∧
    (s.i.toNat + x.val > 4095 → ∃ t, exec (.stm x) s = .next t ∧ t.pc = s.pc + 2#16 ∧
      t.status = .halted (.memOutOfRange s.pc (encode (.stm x)) (BitVec.ofNat 16 (max s.i.toNat 4096))) ∧
      Frame {} s t)

/-- R136: Fx65 loads `V[j]` from `I + j` for `j` from 0 to `x`, and no register above `x`; it faults, loading nothing,
exactly when `I + x > 4095` (D14, D15, log entries 8 and 9). -/
def Obligations.LdmLoadsLowRegisters : Prop :=
  ∀ (x : RegIndex) (s : State),
    (s.i.toNat + x.val ≤ 4095 → ∃ t, exec (.ldm x) s = .next t ∧ Completed (s.pc + 2#16) t ∧
      (∀ j : RegIndex, j ≤ x → t.getV j = Memory.read s.mem (s.i.toNat + j.val)) ∧
      (∀ j : RegIndex, x < j → t.getV j = s.getV j) ∧
      Frame { v := List.finRange 16 } s t) ∧
    (s.i.toNat + x.val > 4095 → ∃ t, exec (.ldm x) s = .next t ∧ t.pc = s.pc + 2#16 ∧
      t.status = .halted (.memOutOfRange s.pc (encode (.ldm x)) (BitVec.ofNat 16 (max s.i.toNat 4096))) ∧
      Frame {} s t)

/-- R135 and R136 together: what Fx55 stored, an Fx65 of the same `x` and `I` loads back, whatever the registers held since. -/
def Obligations.StoredRegistersLoadBack : Prop :=
  ∀ (x : RegIndex) (s : State), s.i.toNat + x.val ≤ 4095 →
    ∃ t, exec (.stm x) s = .next t ∧
      ∀ u : State, u.i = s.i → u.mem = t.mem →
        ∃ r, exec (.ldm x) u = .next r ∧ ∀ j : RegIndex, j ≤ x → r.getV j = s.getV j

/-- R61 with the byte order of R55: a store over the next instruction is what the next fetch reads, the byte at the lower address
being the high byte. -/
def Obligations.StoreIsFetchedNext : Prop :=
  ∀ (x : RegIndex) (s : State), 1 ≤ x.val → s.i.toNat = s.pc.toNat + 2 → s.i.toNat + x.val ≤ 4095 →
    ∃ t w, exec (.stm x) s = .next t ∧ t.fetch = some w ∧
      w.toNat = (s.getV 0).toNat * 256 + (s.getV 1).toNat

/-! ## The display (44_display.md) -/

/-- R144, R142: 00E0 turns every cell off and changes nothing else, VF included. -/
def Obligations.ClsClearsTheDisplay : Prop :=
  ∀ s : State, ∃ t, exec .cls s = .next t ∧ Completed (s.pc + 2#16) t ∧
    (∀ py px, Display.cell t.display py px = false) ∧ Frame { display := true } s t

/-- R145: Dxyn draws the `n` bytes at `I` with the origin `(vx, vy)` as `draw` does (the next statement says what that is),
and writes the collision to VF, drawing or not; it faults, changing no cell and no register, exactly when `I + n > 4096`
(D14, D15, log entries 8 and 9). -/
def Obligations.DrwDrawsAndFlagsCollision : Prop :=
  ∀ (x y : RegIndex) (n : Nibble) (s : State),
    (s.i.toNat + n.toNat ≤ 4096 → ∃ (t : State) (rows : List Byte),
      exec (.drw x y n) s = .next t ∧ Completed (s.pc + 2#16) t ∧
      rows.length = n.toNat ∧ (∀ r, r < n.toNat → rows[r]? = some (Memory.read s.mem (s.i.toNat + r))) ∧
      t.display = (Display.draw s.display (s.getV x).toNat (s.getV y).toNat rows).1 ∧
      t.getV regF = (if (Display.draw s.display (s.getV x).toNat (s.getV y).toNat rows).2
        then 0x01#8 else 0x00#8) ∧
      Frame { v := [regF], display := true } s t) ∧
    (s.i.toNat + n.toNat > 4096 → ∃ t, exec (.drw x y n) s = .next t ∧ t.pc = s.pc + 2#16 ∧
      t.status = .halted (.memOutOfRange s.pc (encode (.drw x y n)) (BitVec.ofNat 16 (max s.i.toNat 4096))) ∧
      Frame {} s t)

/-- R143, R146 (a) to (d): `draw` toggles exactly the cells a set pixel lands on, each axis wrapped by itself, and the collision is
true exactly when one of them was on before. That bit 7 is column 0 is the spec's decision D7 (log entry 3). -/
def Obligations.DrawTogglesSpriteCells : Prop :=
  ∀ (d : Display) (x0 y0 : Nat) (rows : List Byte), rows.length ≤ 15 →
    (∀ py px, (spriteCovers x0 y0 rows py px →
        Display.cell (Display.draw d x0 y0 rows).1 py px = !(Display.cell d py px)) ∧
      (¬ spriteCovers x0 y0 rows py px →
        Display.cell (Display.draw d x0 y0 rows).1 py px = Display.cell d py px)) ∧
    ((Display.draw d x0 y0 rows).2 = true ↔
      ∃ py px, spriteCovers x0 y0 rows py px ∧ Display.cell d py px = true)

/-- R146 (e): drawing the same sprite twice at the same place restores the display; over a clear area the first draw does not
collide, and the second does if the sprite has a set bit. That bit 7 is column 0, which the clear area depends on, is the spec's
decision D7 (log entry 3). -/
def Obligations.DrawTwiceErases : Prop :=
  ∀ (d : Display) (x0 y0 : Nat) (rows : List Byte), rows.length ≤ 15 →
    (Display.draw (Display.draw d x0 y0 rows).1 x0 y0 rows).1 = d ∧
    ((∀ py px, spriteCovers x0 y0 rows py px → Display.cell d py px = false) →
      (Display.draw d x0 y0 rows).2 = false ∧
      ((∃ row ∈ rows, row ≠ 0x00#8) →
        (Display.draw (Display.draw d x0 y0 rows).1 x0 y0 rows).2 = true))

/-! ## Keypad and timers (45_keypad_timers.md) -/

/-- R152, R153: for `vx <= 15` (the spec's decision D13 makes the rest a fault), Ex9E skips exactly when key `vx` is down, ExA1
exactly when it is up. -/
def Obligations.KeySkipsFollowTheKey : Prop :=
  ∀ (x : RegIndex) (k : Fin 16) (s : State), (s.getV x).toNat = k.val →
    (∃ t, exec (.skp x) s = .next t ∧ Frame {} s t ∧
      Completed (if Keypad.isDown s.keypad k then s.pc + 4#16 else s.pc + 2#16) t) ∧
    (∃ t, exec (.sknp x) s = .next t ∧ Frame {} s t ∧
      Completed (if Keypad.isDown s.keypad k then s.pc + 2#16 else s.pc + 4#16) t)

/-- R154, R155 (the spec's decisions D10, D11, D12): with no key down Fx0A changes nothing but the status; with a key down it
completes at once and writes the index of a key that is down (which one is free, log entry 5). -/
def Obligations.WaitkPollsTheKeypad : Prop :=
  ∀ (x : RegIndex) (s : State),
    ((∀ k, Keypad.isDown s.keypad k = false) →
      exec (.waitk x) s = .next { s with status := .awaitingKey }) ∧
    ((∃ k, Keypad.isDown s.keypad k = true) →
      ∃ (t : State) (k : Fin 16), exec (.waitk x) s = .next t ∧ Completed (s.pc + 2#16) t ∧
        Keypad.isDown s.keypad k = true ∧ (t.getV x).toNat = k.val ∧ Frame { v := [x] } s t)

/-- R156, R157, R158: Fx07 reads DT into `V[x]`, Fx15 writes `vx` to DT, Fx18 writes `vx` to ST. -/
def Obligations.TimerInstructionsMoveBytes : Prop :=
  ∀ (x : RegIndex) (s : State),
    (∃ t, exec (.getdt x) s = .next t ∧ Completed (s.pc + 2#16) t ∧ t.getV x = s.dt ∧
      Frame { v := [x] } s t) ∧
    (∃ t, exec (.setdt x) s = .next t ∧ Completed (s.pc + 2#16) t ∧ t.dt = s.getV x ∧
      Frame { dt := true } s t) ∧
    (∃ t, exec (.setst x) s = .next t ∧ Completed (s.pc + 2#16) t ∧ t.st = s.getV x ∧
      Frame { st := true } s t)

/-- R160 (`ST_TICKS` is the spec's decision D6; D33): a tick takes DT one down and stops it at 0, the sound timer likewise if
`ST_TICKS`, and changes nothing else, in every status. -/
def Obligations.TickCountsDownToZero : Prop :=
  (∀ s : State, s.nextMove = .tickTimer → step s = .next (tickTimerWith stTicks s.popSchedule)) ∧
  ∀ (soundToo : Bool) (s : State),
    (tickTimerWith soundToo s).dt.toNat = s.dt.toNat - 1 ∧
    (tickTimerWith soundToo s).st.toNat = (if soundToo then s.st.toNat - 1 else s.st.toNat) ∧
    (tickTimerWith soundToo s).pc = s.pc ∧ (tickTimerWith soundToo s).status = s.status ∧
    Frame { dt := true, st := true } s (tickTimerWith soundToo s)

/-- R150 (out of range: the spec's decision D28): `key_down` and `key_up` set and clear one flag and touch nothing else; an index
above 15 is refused and changes no state. -/
def Obligations.KeyMovesSetOneFlag : Prop :=
  (∀ (k : Fin 16) (down : Bool) (s : State), ∃ t, setKey k.val down s = .ok t ∧
    t = { s with keypad := t.keypad } ∧ Keypad.isDown t.keypad k = down ∧
    ∀ k' : Fin 16, k' ≠ k → Keypad.isDown t.keypad k' = Keypad.isDown s.keypad k') ∧
  (∀ (k : Fin 16) (down : Bool) (s : State),
    s.nextMove = (if down then .keyDown k.val else .keyUp k.val) →
    ∃ t, setKey k.val down s.popSchedule = .ok t ∧ step s = .next t) ∧
  (∀ (k : Nat) (down : Bool) (s : State), 15 < k → setKey k down s = .error .keyIndex) ∧
  (∀ (k : Nat) (s : State), 15 < k → (s.nextMove = .keyDown k ∨ s.nextMove = .keyUp k) →
    step s = .next s.popSchedule)

/-- R203 (too long: the spec's decision D18): `load` writes the bytes from 0x200 on, answers their number, and changes nothing else;
more than 3584 bytes are refused whole. -/
def Obligations.LoadCopiesTheRom : Prop :=
  ∀ (bytes : List Byte) (s : State),
    (bytes.length ≤ 3584 → ∃ t, loadRom bytes s = .ok (bytes.length, t) ∧ t = { s with mem := t.mem } ∧
      (∀ (j : Nat) (h : j < bytes.length), Memory.read t.mem (0x200 + j) = bytes[j]) ∧
      (∀ a : Nat, (a < 0x200 ∨ 0x200 + bytes.length ≤ a) → Memory.read t.mem a = Memory.read s.mem a)) ∧
    (bytes.length ≤ 3584 → s.nextMove = .load bytes →
      ∃ t, loadRom bytes s.popSchedule = .ok (bytes.length, t) ∧ step s = .next t) ∧
    (3584 < bytes.length → loadRom bytes s = .error .romTooLong ∧
      (s.nextMove = .load bytes → step s = .next s.popSchedule))

/-- R141 (out of range: the spec's decision D28): `get` reads the cell, `set` writes that cell and no other; a coordinate out of
range is refused, never wrapped. -/
def Obligations.DisplayGetAndSet : Prop :=
  (∀ (px : Fin 64) (py : Fin 32) (s : State), displayGet px.val py.val s = .ok (Display.cell s.display py px)) ∧
  (∀ (px qx : Fin 64) (py qy : Fin 32) (on : Bool) (s : State), ∃ t, displaySet px.val py.val on s = .ok t ∧
    t = { s with display := t.display } ∧
    Display.cell t.display qy qx = (if qy = py ∧ qx = px then on else Display.cell s.display qy qx)) ∧
  (∀ (x y : Nat) (on : Bool) (s : State), (64 ≤ x ∨ 32 ≤ y) →
    displayGet x y s = .error .coordinate ∧ displaySet x y on s = .error .coordinate)
end

