-- ==== Sys2Proof/Laws/Decode.lean ====
section
/-! SUPPORT. The fields of a word and the encoder's formats as numbers, so that omega decides what they do to each other; the
fields of an encoded word are the fields it was put together from, format by format. -/

namespace Sys2Proof

/-! ## As numbers -/

theorem append_toNat {m n : Nat} (a : BitVec m) (b : BitVec n) :
    (a ++ b).toNat = a.toNat * 2 ^ n + b.toNat := by
  rw [BitVec.toNat_append, ← Nat.shiftLeft_add_eq_or_of_lt b.isLt, Nat.shiftLeft_eq]

theorem extract_toNat {m : Nat} (w : BitVec m) (lo len : Nat) :
    (w.extractLsb' lo len).toNat = w.toNat / 2 ^ lo % 2 ^ len := by
  simp [BitVec.extractLsb'_toNat, Nat.shiftRight_eq_div_pow]

theorem fieldOp1_toNat (w : Word) : (fieldOp1 w).toNat = w.toNat / 4096 := by
  have := w.isLt
  simp only [fieldOp1, extract_toNat]; omega

theorem fieldX_val (w : Word) : (fieldX w).val = w.toNat / 256 % 16 := extract_toNat w 8 4

theorem fieldY_val (w : Word) : (fieldY w).val = w.toNat / 16 % 16 := extract_toNat w 4 4

theorem fieldN_toNat (w : Word) : (fieldN w).toNat = w.toNat % 16 := by
  simp only [fieldN, extract_toNat]; omega

theorem fieldKK_toNat (w : Word) : (fieldKK w).toNat = w.toNat % 256 := by
  simp only [fieldKK, extract_toNat]; omega

theorem fieldNNN_toNat (w : Word) : (fieldNNN w).toNat = w.toNat % 4096 := by
  simp only [fieldNNN, extract_toNat]; omega

theorem formA_toNat (op : Nibble) (nnn : Addr) : (formA op nnn).toNat = op.toNat * 4096 + nnn.toNat :=
  append_toNat op nnn

theorem formI_toNat (op : Nibble) (x : RegIndex) (kk : Byte) :
    (formI op x kk).toNat = op.toNat * 4096 + (x.val * 256 + kk.toNat) :=
  (append_toNat op (regField x ++ kk)).trans (congrArg (op.toNat * 4096 + ·) (append_toNat (regField x) kk))

theorem formR_toNat (op : Nibble) (x y : RegIndex) (n : Nibble) :
    (formR op x y n).toNat = op.toNat * 4096 + (x.val * 256 + (y.val * 16 + n.toNat)) :=
  (append_toNat op (regField x ++ (regField y ++ n))).trans
    (congrArg (op.toNat * 4096 + ·) ((append_toNat (regField x) (regField y ++ n)).trans
      (congrArg (x.val * 256 + ·) (append_toNat (regField y) n))))

/-! ## The fields of an encoded word -/

@[simp] theorem fieldOp1_formA (op : Nibble) (nnn : Addr) : fieldOp1 (formA op nnn) = op :=
  BitVec.eq_of_toNat_eq (by have := nnn.isLt; rw [fieldOp1_toNat, formA_toNat]; omega)

@[simp] theorem fieldNNN_formA (op : Nibble) (nnn : Addr) : fieldNNN (formA op nnn) = nnn :=
  BitVec.eq_of_toNat_eq (by have := nnn.isLt; rw [fieldNNN_toNat, formA_toNat]; omega)

@[simp] theorem fieldOp1_formI (op : Nibble) (x : RegIndex) (kk : Byte) : fieldOp1 (formI op x kk) = op :=
  BitVec.eq_of_toNat_eq (by have := kk.isLt; rw [fieldOp1_toNat, formI_toNat]; omega)

@[simp] theorem fieldX_formI (op : Nibble) (x : RegIndex) (kk : Byte) : fieldX (formI op x kk) = x :=
  Fin.ext (by have := kk.isLt; rw [fieldX_val, formI_toNat]; omega)

@[simp] theorem fieldKK_formI (op : Nibble) (x : RegIndex) (kk : Byte) : fieldKK (formI op x kk) = kk :=
  BitVec.eq_of_toNat_eq (by have := kk.isLt; rw [fieldKK_toNat, formI_toNat]; omega)

@[simp] theorem fieldOp1_formR (op : Nibble) (x y : RegIndex) (n : Nibble) :
    fieldOp1 (formR op x y n) = op :=
  BitVec.eq_of_toNat_eq (by have := n.isLt; rw [fieldOp1_toNat, formR_toNat]; omega)

@[simp] theorem fieldX_formR (op : Nibble) (x y : RegIndex) (n : Nibble) : fieldX (formR op x y n) = x :=
  Fin.ext (by have := n.isLt; rw [fieldX_val, formR_toNat]; omega)

@[simp] theorem fieldY_formR (op : Nibble) (x y : RegIndex) (n : Nibble) : fieldY (formR op x y n) = y :=
  Fin.ext (by have := n.isLt; rw [fieldY_val, formR_toNat]; omega)

@[simp] theorem fieldN_formR (op : Nibble) (x y : RegIndex) (n : Nibble) : fieldN (formR op x y n) = n :=
  BitVec.eq_of_toNat_eq (by have := n.isLt; rw [fieldN_toNat, formR_toNat]; omega)

/-! ## A word is put together from its own fields (R71): they drop no bit -/

theorem formA_fields (w : Word) : formA (fieldOp1 w) (fieldNNN w) = w :=
  BitVec.eq_of_toNat_eq (by rw [formA_toNat, fieldOp1_toNat, fieldNNN_toNat]; omega)

theorem formI_fields (w : Word) : formI (fieldOp1 w) (fieldX w) (fieldKK w) = w :=
  BitVec.eq_of_toNat_eq (by rw [formI_toNat, fieldOp1_toNat, fieldX_val, fieldKK_toNat]; omega)

theorem formR_fields (w : Word) : formR (fieldOp1 w) (fieldX w) (fieldY w) (fieldN w) = w :=
  BitVec.eq_of_toNat_eq
    (by rw [formR_toNat, fieldOp1_toNat, fieldX_val, fieldY_val, fieldN_toNat]; omega)

/-! ## The masks of R76 -/

/-- A mask of the low bits keeps the remainder. -/
theorem maskLow_toNat (w m : Word) (k : Nat) (h : m.toNat = 2 ^ k - 1) :
    (w &&& m).toNat = w.toNat % 2 ^ k := by
  rw [BitVec.toNat_and, h, Nat.and_two_pow_sub_one_eq_mod]

theorem maskF000_toNat (w : Word) : (w &&& 0xF000#16).toNat = w.toNat / 4096 * 4096 := by
  have h : w &&& 0xF000#16 = (w >>> 12) <<< 12 := by
    ext i hi
    interval_cases i <;> simp
  have := w.isLt
  rw [h]
  simp only [BitVec.toNat_shiftLeft, Nat.shiftLeft_eq, BitVec.toNat_ushiftRight, Nat.shiftRight_eq_div_pow]
  omega

/-- The masks of formats R and X: the top nibble and the low bits. -/
theorem maskTopLow_toNat (w m : Word) (k : Nat) (hk : k ≤ 12) (h : m.toNat = 2 ^ k - 1) :
    (w &&& (0xF000#16 ||| m)).toNat = w.toNat / 4096 * 4096 + w.toNat % 2 ^ k := by
  have hm : 0xF000#16 &&& m = 0#16 := by
    apply BitVec.eq_of_toNat_eq
    rw [maskLow_toNat _ _ k h]
    interval_cases k <;> rfl
  have hd : (w &&& 0xF000#16) &&& (w &&& m) = 0#16 := by
    rw [show (w &&& 0xF000#16) &&& (w &&& m) = (w &&& w) &&& (0xF000#16 &&& m) by ac_rfl, hm]
    simp
  have h1 := maskF000_toNat w
  have h2 := maskLow_toNat w m k h
  have h3 := w.isLt
  have h4 : w.toNat % 2 ^ k < 4096 :=
    Nat.lt_of_lt_of_le (Nat.mod_lt _ (by positivity)) (Nat.pow_le_pow_right (n := 2) (by omega) hk)
  rw [BitVec.and_or_distrib_left, ← BitVec.add_eq_or_of_and_eq_zero _ _ hd, BitVec.toNat_add, h1, h2]
  omega

theorem maskF00F_toNat (w : Word) : (w &&& 0xF00F#16).toNat = w.toNat / 4096 * 4096 + w.toNat % 16 :=
  maskTopLow_toNat w 0x000F#16 4 (by omega) rfl

theorem maskF0FF_toNat (w : Word) : (w &&& 0xF0FF#16).toNat = w.toNat / 4096 * 4096 + w.toNat % 256 :=
  maskTopLow_toNat w 0x00FF#16 8 (by omega) rfl

/-! ## Tests of a word as tests of its number

With these, `omega` settles which test of the decoder or of a row a word passes. -/

theorem maskF000_eq_iff (w m : Word) : w &&& 0xF000#16 = m ↔ w.toNat / 4096 * 4096 = m.toNat := by
  rw [← maskF000_toNat]; exact BitVec.toNat_inj.symm

theorem maskF00F_eq_iff (w m : Word) :
    w &&& 0xF00F#16 = m ↔ w.toNat / 4096 * 4096 + w.toNat % 16 = m.toNat := by
  rw [← maskF00F_toNat]; exact BitVec.toNat_inj.symm

theorem maskF0FF_eq_iff (w m : Word) :
    w &&& 0xF0FF#16 = m ↔ w.toNat / 4096 * 4096 + w.toNat % 256 = m.toNat := by
  rw [← maskF0FF_toNat]; exact BitVec.toNat_inj.symm

theorem maskFFFF_eq_iff (w m : Word) : w &&& 0xFFFF#16 = m ↔ w.toNat = m.toNat := by
  have h : w &&& 0xFFFF#16 = w := by
    have h := maskLow_toNat w 0xFFFF#16 16 rfl
    exact BitVec.eq_of_toNat_eq (by have := w.isLt; omega)
  rw [h]; exact BitVec.toNat_inj.symm

theorem mask000F_eq_iff (w m : Word) : w &&& 0x000F#16 = m ↔ w.toNat % 16 = m.toNat := by
  have h := maskLow_toNat w 0x000F#16 4 rfl
  norm_num at h
  rw [← h]; exact BitVec.toNat_inj.symm

theorem mask00FF_eq_iff (w m : Word) : w &&& 0x00FF#16 = m ↔ w.toNat % 256 = m.toNat := by
  have h := maskLow_toNat w 0x00FF#16 8 rfl
  norm_num at h
  rw [← h]; exact BitVec.toNat_inj.symm

theorem fieldOp1_eq_iff (w : Word) (m : Nibble) : fieldOp1 w = m ↔ w.toNat / 4096 = m.toNat := by
  rw [← fieldOp1_toNat]; exact BitVec.toNat_inj.symm

theorem fieldN_eq_iff (w : Word) (m : Nibble) : fieldN w = m ↔ w.toNat % 16 = m.toNat := by
  rw [← fieldN_toNat]; exact BitVec.toNat_inj.symm

theorem fieldKK_eq_iff (w : Word) (m : Byte) : fieldKK w = m ↔ w.toNat % 256 = m.toNat := by
  rw [← fieldKK_toNat]; exact BitVec.toNat_inj.symm

/-! ## Bytes -/

/-- The value of a fetched word, big-endian (R55, R91). -/
theorem wordOfBytes_toNat (hi lo : Byte) : (wordOfBytes hi lo).toNat = hi.toNat * 256 + lo.toNat :=
  append_toNat hi lo

theorem highByte_toNat (w : Word) : (highByte w).toNat = w.toNat / 256 := by
  have := w.isLt
  simp only [highByte, extract_toNat]; omega

theorem lowByte_toNat (w : Word) : (lowByte w).toNat = w.toNat % 256 := by
  simp only [lowByte, extract_toNat]; omega

/-- The two bytes of a word, put together again, are the word (R55). -/
@[simp] theorem wordOfBytes_bytes (w : Word) : wordOfBytes (highByte w) (lowByte w) = w :=
  BitVec.eq_of_toNat_eq (by rw [wordOfBytes_toNat, highByte_toNat, lowByte_toNat]; omega)

/-- Decoding the bytes of an instruction is decoding its word. -/
theorem decodeBytes_encodeBytes (i : Instr) (rest : List Byte) :
    decodeBytes (encodeBytes i ++ rest) = .ok (decodeWord (encode i), rest) := by
  simp [encodeBytes, decodeBytes]

end Sys2Proof
end

