-- ==== Sys2Proof/Laws/State.lean ====
section
/-! SUPPORT. What each update of the state does to each field: one lemma a field and update, true by rfl, so that no proof
unfolds an update. Registers are read through `getV`. -/

namespace Sys2Proof.Machine

variable (s : State)

/-! ## `State.advance` -/

@[simp] theorem State.advance_v : s.advance.v = s.v := rfl
@[simp] theorem State.advance_i : s.advance.i = s.i := rfl
@[simp] theorem State.advance_pc : s.advance.pc = s.pc + 2#16 := rfl
@[simp] theorem State.advance_stack : s.advance.stack = s.stack := rfl
@[simp] theorem State.advance_sp : s.advance.sp = s.sp := rfl
@[simp] theorem State.advance_dt : s.advance.dt = s.dt := rfl
@[simp] theorem State.advance_st : s.advance.st = s.st := rfl
@[simp] theorem State.advance_mem : s.advance.mem = s.mem := rfl
@[simp] theorem State.advance_display : s.advance.display = s.display := rfl
@[simp] theorem State.advance_keypad : s.advance.keypad = s.keypad := rfl
@[simp] theorem State.advance_status : s.advance.status = s.status := rfl
@[simp] theorem State.advance_schedule : s.advance.schedule = s.schedule := rfl
@[simp] theorem State.advance_rndDraws : s.advance.rndDraws = s.rndDraws := rfl

/-! ## `State.setV` -/

@[simp] theorem State.setV_i (x : RegIndex) (b : Byte) : (s.setV x b).i = s.i := rfl
@[simp] theorem State.setV_pc (x : RegIndex) (b : Byte) : (s.setV x b).pc = s.pc := rfl
@[simp] theorem State.setV_stack (x : RegIndex) (b : Byte) : (s.setV x b).stack = s.stack := rfl
@[simp] theorem State.setV_sp (x : RegIndex) (b : Byte) : (s.setV x b).sp = s.sp := rfl
@[simp] theorem State.setV_dt (x : RegIndex) (b : Byte) : (s.setV x b).dt = s.dt := rfl
@[simp] theorem State.setV_st (x : RegIndex) (b : Byte) : (s.setV x b).st = s.st := rfl
@[simp] theorem State.setV_mem (x : RegIndex) (b : Byte) : (s.setV x b).mem = s.mem := rfl
@[simp] theorem State.setV_display (x : RegIndex) (b : Byte) : (s.setV x b).display = s.display := rfl
@[simp] theorem State.setV_keypad (x : RegIndex) (b : Byte) : (s.setV x b).keypad = s.keypad := rfl
@[simp] theorem State.setV_status (x : RegIndex) (b : Byte) : (s.setV x b).status = s.status := rfl
@[simp] theorem State.setV_schedule (x : RegIndex) (b : Byte) : (s.setV x b).schedule = s.schedule := rfl
@[simp] theorem State.setV_rndDraws (x : RegIndex) (b : Byte) : (s.setV x b).rndDraws = s.rndDraws := rfl

/-! ## `State.setFlag` -/

@[simp] theorem State.setFlag_i (f : Bool) : (s.setFlag f).i = s.i := rfl
@[simp] theorem State.setFlag_pc (f : Bool) : (s.setFlag f).pc = s.pc := rfl
@[simp] theorem State.setFlag_stack (f : Bool) : (s.setFlag f).stack = s.stack := rfl
@[simp] theorem State.setFlag_sp (f : Bool) : (s.setFlag f).sp = s.sp := rfl
@[simp] theorem State.setFlag_dt (f : Bool) : (s.setFlag f).dt = s.dt := rfl
@[simp] theorem State.setFlag_st (f : Bool) : (s.setFlag f).st = s.st := rfl
@[simp] theorem State.setFlag_mem (f : Bool) : (s.setFlag f).mem = s.mem := rfl
@[simp] theorem State.setFlag_display (f : Bool) : (s.setFlag f).display = s.display := rfl
@[simp] theorem State.setFlag_keypad (f : Bool) : (s.setFlag f).keypad = s.keypad := rfl
@[simp] theorem State.setFlag_status (f : Bool) : (s.setFlag f).status = s.status := rfl
@[simp] theorem State.setFlag_schedule (f : Bool) : (s.setFlag f).schedule = s.schedule := rfl
@[simp] theorem State.setFlag_rndDraws (f : Bool) : (s.setFlag f).rndDraws = s.rndDraws := rfl

/-! ## `State.push` -/

@[simp] theorem State.push_v (ret : Word) : (s.push ret).v = s.v := rfl
@[simp] theorem State.push_i (ret : Word) : (s.push ret).i = s.i := rfl
@[simp] theorem State.push_pc (ret : Word) : (s.push ret).pc = s.pc := rfl
@[simp] theorem State.push_stack (ret : Word) : (s.push ret).stack = s.stack.set (s.sp + 1).val ret (s.sp + 1).isLt := rfl
@[simp] theorem State.push_sp (ret : Word) : (s.push ret).sp = s.sp + 1 := rfl
@[simp] theorem State.push_dt (ret : Word) : (s.push ret).dt = s.dt := rfl
@[simp] theorem State.push_st (ret : Word) : (s.push ret).st = s.st := rfl
@[simp] theorem State.push_mem (ret : Word) : (s.push ret).mem = s.mem := rfl
@[simp] theorem State.push_display (ret : Word) : (s.push ret).display = s.display := rfl
@[simp] theorem State.push_keypad (ret : Word) : (s.push ret).keypad = s.keypad := rfl
@[simp] theorem State.push_status (ret : Word) : (s.push ret).status = s.status := rfl
@[simp] theorem State.push_schedule (ret : Word) : (s.push ret).schedule = s.schedule := rfl
@[simp] theorem State.push_rndDraws (ret : Word) : (s.push ret).rndDraws = s.rndDraws := rfl

/-! ## `State.popToPc` -/

@[simp] theorem State.popToPc_v : s.popToPc.v = s.v := rfl
@[simp] theorem State.popToPc_i : s.popToPc.i = s.i := rfl
@[simp] theorem State.popToPc_pc : s.popToPc.pc = s.top := rfl
@[simp] theorem State.popToPc_stack : s.popToPc.stack = s.stack := rfl
@[simp] theorem State.popToPc_sp : s.popToPc.sp = s.sp - 1 := rfl
@[simp] theorem State.popToPc_dt : s.popToPc.dt = s.dt := rfl
@[simp] theorem State.popToPc_st : s.popToPc.st = s.st := rfl
@[simp] theorem State.popToPc_mem : s.popToPc.mem = s.mem := rfl
@[simp] theorem State.popToPc_display : s.popToPc.display = s.display := rfl
@[simp] theorem State.popToPc_keypad : s.popToPc.keypad = s.keypad := rfl
@[simp] theorem State.popToPc_status : s.popToPc.status = s.status := rfl
@[simp] theorem State.popToPc_schedule : s.popToPc.schedule = s.schedule := rfl
@[simp] theorem State.popToPc_rndDraws : s.popToPc.rndDraws = s.rndDraws := rfl

/-! ## `State.drawn` -/

@[simp] theorem State.drawn_v : s.drawn.v = s.v := rfl
@[simp] theorem State.drawn_i : s.drawn.i = s.i := rfl
@[simp] theorem State.drawn_pc : s.drawn.pc = s.pc := rfl
@[simp] theorem State.drawn_stack : s.drawn.stack = s.stack := rfl
@[simp] theorem State.drawn_sp : s.drawn.sp = s.sp := rfl
@[simp] theorem State.drawn_dt : s.drawn.dt = s.dt := rfl
@[simp] theorem State.drawn_st : s.drawn.st = s.st := rfl
@[simp] theorem State.drawn_mem : s.drawn.mem = s.mem := rfl
@[simp] theorem State.drawn_display : s.drawn.display = s.display := rfl
@[simp] theorem State.drawn_keypad : s.drawn.keypad = s.keypad := rfl
@[simp] theorem State.drawn_status : s.drawn.status = s.status := rfl
@[simp] theorem State.drawn_schedule : s.drawn.schedule = s.schedule := rfl
@[simp] theorem State.drawn_rndDraws : s.drawn.rndDraws = s.rndDraws + 1 := rfl

/-! ## `State.popSchedule` -/

@[simp] theorem State.popSchedule_v : s.popSchedule.v = s.v := rfl
@[simp] theorem State.popSchedule_i : s.popSchedule.i = s.i := rfl
@[simp] theorem State.popSchedule_pc : s.popSchedule.pc = s.pc := rfl
@[simp] theorem State.popSchedule_stack : s.popSchedule.stack = s.stack := rfl
@[simp] theorem State.popSchedule_sp : s.popSchedule.sp = s.sp := rfl
@[simp] theorem State.popSchedule_dt : s.popSchedule.dt = s.dt := rfl
@[simp] theorem State.popSchedule_st : s.popSchedule.st = s.st := rfl
@[simp] theorem State.popSchedule_mem : s.popSchedule.mem = s.mem := rfl
@[simp] theorem State.popSchedule_display : s.popSchedule.display = s.display := rfl
@[simp] theorem State.popSchedule_keypad : s.popSchedule.keypad = s.keypad := rfl
@[simp] theorem State.popSchedule_status : s.popSchedule.status = s.status := rfl
@[simp] theorem State.popSchedule_schedule : s.popSchedule.schedule = s.schedule.tail := rfl
@[simp] theorem State.popSchedule_rndDraws : s.popSchedule.rndDraws = s.rndDraws := rfl

/-! ## `State.loadLowRegisters` -/

@[simp] theorem State.loadLowRegisters_i (x : RegIndex) : (s.loadLowRegisters x).i = s.i := rfl
@[simp] theorem State.loadLowRegisters_pc (x : RegIndex) : (s.loadLowRegisters x).pc = s.pc := rfl
@[simp] theorem State.loadLowRegisters_stack (x : RegIndex) : (s.loadLowRegisters x).stack = s.stack := rfl
@[simp] theorem State.loadLowRegisters_sp (x : RegIndex) : (s.loadLowRegisters x).sp = s.sp := rfl
@[simp] theorem State.loadLowRegisters_dt (x : RegIndex) : (s.loadLowRegisters x).dt = s.dt := rfl
@[simp] theorem State.loadLowRegisters_st (x : RegIndex) : (s.loadLowRegisters x).st = s.st := rfl
@[simp] theorem State.loadLowRegisters_mem (x : RegIndex) : (s.loadLowRegisters x).mem = s.mem := rfl
@[simp] theorem State.loadLowRegisters_display (x : RegIndex) : (s.loadLowRegisters x).display = s.display := rfl
@[simp] theorem State.loadLowRegisters_keypad (x : RegIndex) : (s.loadLowRegisters x).keypad = s.keypad := rfl
@[simp] theorem State.loadLowRegisters_status (x : RegIndex) : (s.loadLowRegisters x).status = s.status := rfl
@[simp] theorem State.loadLowRegisters_schedule (x : RegIndex) : (s.loadLowRegisters x).schedule = s.schedule := rfl
@[simp] theorem State.loadLowRegisters_rndDraws (x : RegIndex) : (s.loadLowRegisters x).rndDraws = s.rndDraws := rfl

/-! ## `State.resetBlock`: the reset state, but for the model's own inputs -/

@[simp] theorem State.resetBlock_v : s.resetBlock.v = State.reset.v := rfl
@[simp] theorem State.resetBlock_i : s.resetBlock.i = State.reset.i := rfl
@[simp] theorem State.resetBlock_pc : s.resetBlock.pc = State.reset.pc := rfl
@[simp] theorem State.resetBlock_stack : s.resetBlock.stack = State.reset.stack := rfl
@[simp] theorem State.resetBlock_sp : s.resetBlock.sp = State.reset.sp := rfl
@[simp] theorem State.resetBlock_dt : s.resetBlock.dt = State.reset.dt := rfl
@[simp] theorem State.resetBlock_st : s.resetBlock.st = State.reset.st := rfl
@[simp] theorem State.resetBlock_mem : s.resetBlock.mem = State.reset.mem := rfl
@[simp] theorem State.resetBlock_display : s.resetBlock.display = State.reset.display := rfl
@[simp] theorem State.resetBlock_keypad : s.resetBlock.keypad = State.reset.keypad := rfl
@[simp] theorem State.resetBlock_status : s.resetBlock.status = State.reset.status := rfl
@[simp] theorem State.resetBlock_schedule : s.resetBlock.schedule = s.schedule := rfl
@[simp] theorem State.resetBlock_rndDraws : s.resetBlock.rndDraws = s.rndDraws := rfl

/-! ## `tickTimerWith` -/

@[simp] theorem tickTimerWith_v (soundToo : Bool) : (tickTimerWith soundToo s).v = s.v := rfl
@[simp] theorem tickTimerWith_i (soundToo : Bool) : (tickTimerWith soundToo s).i = s.i := rfl
@[simp] theorem tickTimerWith_pc (soundToo : Bool) : (tickTimerWith soundToo s).pc = s.pc := rfl
@[simp] theorem tickTimerWith_stack (soundToo : Bool) : (tickTimerWith soundToo s).stack = s.stack := rfl
@[simp] theorem tickTimerWith_sp (soundToo : Bool) : (tickTimerWith soundToo s).sp = s.sp := rfl
@[simp] theorem tickTimerWith_dt (soundToo : Bool) : (tickTimerWith soundToo s).dt = countDown s.dt := rfl
@[simp] theorem tickTimerWith_st (soundToo : Bool) : (tickTimerWith soundToo s).st = if soundToo then countDown s.st else s.st := rfl
@[simp] theorem tickTimerWith_mem (soundToo : Bool) : (tickTimerWith soundToo s).mem = s.mem := rfl
@[simp] theorem tickTimerWith_display (soundToo : Bool) : (tickTimerWith soundToo s).display = s.display := rfl
@[simp] theorem tickTimerWith_keypad (soundToo : Bool) : (tickTimerWith soundToo s).keypad = s.keypad := rfl
@[simp] theorem tickTimerWith_status (soundToo : Bool) : (tickTimerWith soundToo s).status = s.status := rfl
@[simp] theorem tickTimerWith_schedule (soundToo : Bool) : (tickTimerWith soundToo s).schedule = s.schedule := rfl
@[simp] theorem tickTimerWith_rndDraws (soundToo : Bool) : (tickTimerWith soundToo s).rndDraws = s.rndDraws := rfl

/-! ## General registers -/

@[simp] theorem State.getV_setV_same (x : RegIndex) (b : Byte) : (s.setV x b).getV x = b := by
  simp [State.getV, State.setV]

theorem State.getV_setV_ne (x r : RegIndex) (b : Byte) (h : r ≠ x) :
    (s.setV x b).getV r = s.getV r := by
  have h' : x.val ≠ r.val := fun e => h (Fin.ext e.symm)
  simp [State.getV, State.setV, h']

theorem State.getV_setV (x r : RegIndex) (b : Byte) :
    (s.setV x b).getV r = if r = x then b else s.getV r := by
  split
  · next h => rw [h, State.getV_setV_same]
  · next h => exact State.getV_setV_ne s x r b h

@[simp] theorem State.setFlag_eq (f : Bool) : s.setFlag f = s.setV regF (flagByte f) := rfl

@[simp] theorem State.getV_advance (r : RegIndex) : s.advance.getV r = s.getV r := rfl
@[simp] theorem State.getV_push (ret : Word) (r : RegIndex) : (s.push ret).getV r = s.getV r := rfl
@[simp] theorem State.getV_popToPc (r : RegIndex) : s.popToPc.getV r = s.getV r := rfl
@[simp] theorem State.getV_drawn (r : RegIndex) : s.drawn.getV r = s.getV r := rfl
@[simp] theorem State.getV_popSchedule (r : RegIndex) : s.popSchedule.getV r = s.getV r := rfl

/-- A register is read from the field `v` alone. -/
theorem State.getV_congr (t : State) (h : t.v = s.v) (r : RegIndex) : t.getV r = s.getV r := by
  simp [State.getV, h]

/-- The first `n` registers are loaded, the others stay (R136). -/
theorem loadRegisters_getElem (m : Memory) (a n : Nat) (v : Vector Byte 16) (r : RegIndex) :
    (loadRegisters m a n v)[r] = if r.val < n then Memory.read m (a + r.val) else v[r] := by
  induction n with
  | zero => simp [loadRegisters]
  | succ n ih =>
    simp only [loadRegisters, Fin.getElem_fin, Vector.getElem_setIfInBounds] at ih ⊢
    by_cases h : n = r.val
    · rw [if_pos h, if_pos (by omega), h]
    · rw [if_neg h, ih]
      by_cases h' : r.val < n
      · rw [if_pos h', if_pos (by omega)]
      · rw [if_neg h', if_neg (by omega)]

theorem State.getV_loadLowRegisters (x r : RegIndex) :
    (s.loadLowRegisters x).getV r =
      if r ≤ x then Memory.read s.mem (s.i.toNat + r.val) else s.getV r := by
  refine (loadRegisters_getElem _ _ _ _ _).trans (if_congr ?_ rfl rfl)
  rw [blockLength, Fin.le_def, Nat.lt_succ_iff]

/-- All a block load does: the register file is replaced, and nothing else (R136). -/
theorem State.loadLowRegisters_spec (x : RegIndex) :
    ∃ w : Vector Byte 16, s.loadLowRegisters x = { s with v := w } ∧
      ∀ r : RegIndex, w[r] = if r ≤ x then Memory.read s.mem (s.i.toNat + r.val) else s.getV r :=
  ⟨_, rfl, fun r => State.getV_loadLowRegisters s x r⟩

/-- The registers `V[0]` to `V[x]`, one by one (R135). -/
theorem State.lowRegisters_getElem? (x : RegIndex) (j : Nat) :
    (s.lowRegisters x)[j]? = if h : j < x.val + 1 then some (s.getV ⟨j, Nat.lt_of_lt_of_le h x.isLt⟩) else none := by
  have hx := x.isLt
  simp only [State.lowRegisters, blockLength, State.getV, List.getElem?_take]
  split
  · next h => simp [show j < 16 by omega]
  · rfl

@[simp] theorem State.lowRegisters_length (x : RegIndex) : (s.lowRegisters x).length = blockLength x := by
  have hx := x.isLt
  simp only [State.lowRegisters, blockLength, List.length_take, Vector.length_toList]
  omega

/-- A pushed return address is the new top (R103). -/
@[simp] theorem State.top_push (ret : Word) : (s.push ret).top = ret := by
  simp [State.top, State.push]

/-- A push leaves every other slot alone (R103). -/
theorem State.slot_push_ne (ret : Word) (k : Fin 16) (h : k ≠ s.sp + 1) :
    (s.push ret).stack[k] = s.stack[k] := by
  have h' : (s.sp + 1).val ≠ k.val := fun e => h (Fin.ext e.symm)
  simp only [State.push_stack, Fin.getElem_fin, Vector.getElem_set, h', if_false]

end Sys2Proof.Machine
end

