-- ==== Sys2Proof/Laws/Memory.lean ====
section
/-! SUPPORT. The laws of memory: a read after a write, byte by byte and block by block, on every list of cells, canonical or
not; and that every operation keeps the canonical form. -/

namespace Sys2Proof.Machine

theorem Memory.read_erase_same (m : Memory) (a : Nat) :
    Memory.read (Memory.erase m a) a = resetByte a := by
  induction m with
  | nil => rfl
  | cons c rest ih =>
    obtain ⟨k, b⟩ := c
    by_cases h : k = a
    · subst h; simpa [Memory.erase] using ih
    · have h' : a ≠ k := fun e => h e.symm
      simpa [Memory.erase, Memory.read, h, h'] using ih

theorem Memory.read_erase_ne (m : Memory) (a a' : Nat) (h : a' ≠ a) :
    Memory.read (Memory.erase m a) a' = Memory.read m a' := by
  induction m with
  | nil => rfl
  | cons c rest ih =>
    obtain ⟨k, b⟩ := c
    by_cases hk : k = a
    · subst hk; simpa [Memory.erase, Memory.read, h] using ih
    · by_cases hr : a' = k
      · subst hr; simp [Memory.erase, Memory.read, h]
      · simpa [Memory.erase, Memory.read, hk, hr] using ih

theorem Memory.read_insert_same (m : Memory) (a : Nat) (b : Byte) (h : ∀ c ∈ m, c.1 ≠ a) :
    Memory.read (Memory.insert a b m) a = b := by
  induction m with
  | nil => simp [Memory.insert, Memory.read]
  | cons c rest ih =>
    unfold Memory.insert
    split
    · simp [Memory.read]
    · have hc : a ≠ c.1 := (h c (by simp)).symm
      simp only [Memory.read, if_neg hc]
      exact ih (fun d hd => h d (by simp [hd]))

theorem Memory.read_insert_ne (m : Memory) (a a' : Nat) (b : Byte) (h : a' ≠ a) :
    Memory.read (Memory.insert a b m) a' = Memory.read m a' := by
  induction m with
  | nil => simp [Memory.insert, Memory.read, h]
  | cons c rest ih =>
    unfold Memory.insert
    split
    · simp [Memory.read, h]
    · simp only [Memory.read, ih]

theorem Memory.erase_ne (m : Memory) (a : Nat) : ∀ c ∈ Memory.erase m a, c.1 ≠ a := by
  intro c hc
  simpa using (List.mem_filter.mp hc).2

/-- A byte reads as it was written (R58). -/
@[simp] theorem Memory.read_write_same (m : Memory) (a : Nat) (b : Byte) :
    Memory.read (Memory.write m a b) a = b := by
  unfold Memory.write
  split
  · next h => rw [Memory.read_erase_same, h]
  · exact Memory.read_insert_same _ _ _ (Memory.erase_ne m a)

/-- A write leaves every other byte alone. -/
theorem Memory.read_write_ne (m : Memory) (a a' : Nat) (b : Byte) (h : a' ≠ a) :
    Memory.read (Memory.write m a b) a' = Memory.read m a' := by
  unfold Memory.write
  split
  · exact Memory.read_erase_ne m a a' h
  · rw [Memory.read_insert_ne _ _ _ _ h, Memory.read_erase_ne _ _ _ h]

/-- What a block store does to every byte: inside the block the stored byte, outside it nothing (R56). -/
theorem Memory.read_writeBytes (bs : List Byte) :
    ∀ (m : Memory) (a a' : Nat), Memory.read (Memory.writeBytes m a bs) a' =
      if h : a ≤ a' ∧ a' - a < bs.length then bs[a' - a]'h.2 else Memory.read m a' := by
  induction bs with
  | nil => intro m a a'; simp [Memory.writeBytes]
  | cons b bs ih =>
    intro m a a'
    rw [Memory.writeBytes, ih]
    rcases Nat.lt_trichotomy a' a with h | h | h
    · rw [dif_neg (by omega), dif_neg (by omega), Memory.read_write_ne _ _ _ _ (by omega)]
    · subst h; simp
    · obtain ⟨d, rfl⟩ : ∃ d, a' = a + 1 + d := ⟨a' - (a + 1), by omega⟩
      have e : a + 1 + d - a = d + 1 := by omega
      have e' : a + 1 + d - (a + 1) = d := by omega
      by_cases hd : d < bs.length
      · rw [dif_pos ⟨by omega, by omega⟩, dif_pos ⟨by omega, by simp only [List.length_cons]; omega⟩]
        have key : ∀ i j, (hi : i < bs.length) → (hj : j < (b :: bs).length) → j = i + 1 →
            bs[i] = (b :: bs)[j] := by
          intro i j hi hj hij; subst hij; rfl
        exact key _ _ _ _ (by omega)
      · rw [dif_neg (by omega), dif_neg (by simp only [List.length_cons]; omega), Memory.read_write_ne _ _ _ _ (by omega)]

theorem Memory.read_writeBytes_outside (m : Memory) (a a' : Nat) (bs : List Byte)
    (h : a' < a ∨ a + bs.length ≤ a') :
    Memory.read (Memory.writeBytes m a bs) a' = Memory.read m a' := by
  rw [Memory.read_writeBytes, dif_neg (by omega)]

theorem Memory.read_writeBytes_inside (m : Memory) (a j : Nat) (bs : List Byte) (h : j < bs.length) :
    Memory.read (Memory.writeBytes m a bs) (a + j) = bs[j] := by
  rw [Memory.read_writeBytes, dif_pos (by omega)]
  simp

@[simp] theorem Memory.readBytes_length (m : Memory) (a n : Nat) : (Memory.readBytes m a n).length = n := by
  induction n generalizing a with
  | zero => rfl
  | succ n ih => simp [Memory.readBytes, ih]

theorem Memory.readBytes_getElem? (m : Memory) (a n j : Nat) :
    (Memory.readBytes m a n)[j]? = if j < n then some (Memory.read m (a + j)) else none := by
  induction n generalizing a j with
  | zero => simp [Memory.readBytes]
  | succ n ih =>
    cases j with
    | zero => simp [Memory.readBytes]
    | succ j => simp [Memory.readBytes, ih, Nat.add_assoc, Nat.add_comm 1 j]

/-! ## The canonical form -/

theorem Memory.wf_nil : Memory.wf [] := ⟨List.Pairwise.nil, fun _ h => nomatch h⟩

theorem Memory.erase_wf (m : Memory) (a : Nat) (h : Memory.wf m) : Memory.wf (Memory.erase m a) :=
  ⟨h.1.filter _, fun c hc => h.2 c (List.mem_filter.mp hc).1⟩

theorem Memory.mem_insert (a : Nat) (b : Byte) (m : Memory) (c : Host.Cell)
    (h : c ∈ Memory.insert a b m) : c = (a, b) ∨ c ∈ m := by
  induction m with
  | nil => simpa [Memory.insert] using h
  | cons d rest ih =>
    unfold Memory.insert at h
    split at h
    · simpa using h
    · rcases List.mem_cons.mp h with rfl | h
      · simp
      · rcases ih h with rfl | h <;> simp_all

theorem Memory.insert_wf (a : Nat) (b : Byte) (m : Memory) (h : Memory.wf m) (ha : a < Config.params.memSize)
    (hb : b ≠ resetByte a) (hne : ∀ c ∈ m, c.1 ≠ a) : Memory.wf (Memory.insert a b m) := by
  refine ⟨?_, fun c hc => ?_⟩
  · induction m with
    | nil => simp [Memory.insert]
    | cons d rest ih =>
      have hd := List.pairwise_cons.mp h.1
      unfold Memory.insert
      split
      · next hlt =>
        refine List.pairwise_cons.mpr ⟨fun c hc => ?_, h.1⟩
        rcases List.mem_cons.mp hc with rfl | hc
        · exact hlt
        · exact Nat.lt_trans hlt (hd.1 c hc)
      · next hge =>
        refine List.pairwise_cons.mpr ⟨fun c hc => ?_, ?_⟩
        · rcases Memory.mem_insert a b rest c hc with rfl | hc
          · have := hne d (by simp); show d.1 < a; omega
          · exact hd.1 c hc
        · exact ih ⟨hd.2, fun c hc => h.2 c (by simp [hc])⟩ (fun c hc => hne c (by simp [hc]))
  · rcases Memory.mem_insert a b m c hc with rfl | hc
    · exact ⟨ha, hb⟩
    · exact h.2 c hc

/-- A write inside memory keeps the canonical form. -/
theorem Memory.write_wf (m : Memory) (a : Nat) (b : Byte) (h : Memory.wf m) (ha : a < Config.params.memSize) :
    Memory.wf (Memory.write m a b) := by
  unfold Memory.write
  split
  · exact Memory.erase_wf m a h
  · next hb => exact Memory.insert_wf a b _ (Memory.erase_wf m a h) ha hb (Memory.erase_ne m a)

/-- A block store inside memory keeps the canonical form. -/
theorem Memory.writeBytes_wf (bs : List Byte) : ∀ (m : Memory) (a : Nat), Memory.wf m →
    a + bs.length ≤ Config.params.memSize → Memory.wf (Memory.writeBytes m a bs) := by
  induction bs with
  | nil => intro m a h _; exact h
  | cons b bs ih =>
    intro m a h ha
    rw [List.length_cons] at ha
    exact ih _ _ (Memory.write_wf m a b h (by dsimp only at ha ⊢; omega)) (by dsimp only at ha ⊢; omega)

theorem State.reset_mem_wf : Memory.wf State.reset.mem := Memory.wf_nil

end Sys2Proof.Machine
end

