-- ==== Sys2Proof/Laws/Ops.lean ====
section
/-! SUPPORT. One lemma for each shared operation that says all it can do: what it answers, the registers it writes, the frame.
Proofs about instructions cite these and do not unfold the operation. A parameter of the configuration record is read as its
number by `dsimp only`. -/

namespace Sys2Proof.Machine

variable (s : State)

/-! ## Frames -/

/-- Nothing changes from a state to itself. -/
theorem Frame.refl (c : MayChange) : Frame c s s :=
  ⟨fun _ _ => rfl, fun _ => rfl, fun _ => ⟨rfl, rfl⟩, fun _ => rfl, fun _ => rfl, fun _ _ => rfl,
    fun _ => rfl, fun _ => rfl, rfl, rfl⟩

/-- `pc` and `status` are outside every frame. -/
theorem Frame.of_pc_status (c : MayChange) (p : Word) (r : Status) :
    Frame c s { s with pc := p, status := r } :=
  ⟨fun _ _ => rfl, fun _ => rfl, fun _ => ⟨rfl, rfl⟩, fun _ => rfl, fun _ => rfl, fun _ _ => rfl,
    fun _ => rfl, fun _ => rfl, rfl, rfl⟩

/-! ## Ends of a cycle -/

/-- Completing an instruction sets `status` to RUNNING and nothing else (R96). -/
theorem complete_next (t : State) : complete s = .next t ↔ t = { s with status := .running } := by
  simp only [complete, Host.Outcome.next.injEq]
  exact eq_comm

/-- Taking a fault latches the record and changes nothing else (R174). -/
theorem raise_next (record : Fault) (t : State) :
    raise record s = .next t ↔ t = { s with status := .halted record } := by
  simp only [raise, Host.Outcome.next.injEq]
  exact eq_comm

theorem advance_advance_pc : s.advance.advance.pc = s.pc + 4#16 := by
  simp [BitVec.add_assoc]

/-! ## Shapes of instructions -/

/-- One register written, nothing else. -/
theorem finishV_spec (x : RegIndex) (b : Byte) :
    ∃ t, finishV x b s = .next t ∧ Completed (s.pc + 2#16) t ∧ t.getV x = b ∧
      Frame { v := [x] } s t := by
  refine ⟨_, rfl, ⟨rfl, rfl⟩, State.getV_setV_same _ x b, ?_⟩
  exact ⟨fun r hr => State.getV_setV_ne _ x r b (by simpa using hr), fun _ => rfl, fun _ => ⟨rfl, rfl⟩,
    fun _ => rfl, fun _ => rfl, fun _ _ => rfl, fun _ => rfl, fun _ => rfl, rfl, rfl⟩

/-- A result and then the flag: with `x = 15` the flag stands (R24). -/
theorem finishResultThenFlag_spec (x : RegIndex) (b : Byte) (f : Bool) :
    ∃ t, finishResultThenFlag x b f s = .next t ∧ Completed (s.pc + 2#16) t ∧
      t.getV regF = flagByte f ∧ (x ≠ regF → t.getV x = b) ∧ Frame { v := [x, regF] } s t := by
  refine ⟨_, rfl, ⟨rfl, rfl⟩, State.getV_setV_same _ _ _, fun hx => ?_, ?_⟩
  · exact (State.getV_setV_ne _ regF x _ hx).trans (State.getV_setV_same _ x b)
  · refine ⟨fun r hr => ?_, fun _ => rfl, fun _ => ⟨rfl, rfl⟩, fun _ => rfl, fun _ => rfl, fun _ _ => rfl,
      fun _ => rfl, fun _ => rfl, rfl, rfl⟩
    simp only [List.mem_cons, List.not_mem_nil, or_false, not_or] at hr
    exact (State.getV_setV_ne _ regF r _ hr.2).trans (State.getV_setV_ne _ x r b hr.1)

/-- The flag and then a result: with `x = 15` the result stands (R24). -/
theorem finishFlagThenResult_spec (x : RegIndex) (b : Byte) (f : Bool) :
    ∃ t, finishFlagThenResult x b f s = .next t ∧ Completed (s.pc + 2#16) t ∧
      t.getV x = b ∧ (x ≠ regF → t.getV regF = flagByte f) ∧ Frame { v := [x, regF] } s t := by
  refine ⟨_, rfl, ⟨rfl, rfl⟩, State.getV_setV_same _ _ _, fun hx => ?_, ?_⟩
  · exact (State.getV_setV_ne _ x regF _ (Ne.symm hx)).trans (State.getV_setV_same _ regF _)
  · refine ⟨fun r hr => ?_, fun _ => rfl, fun _ => ⟨rfl, rfl⟩, fun _ => rfl, fun _ => rfl, fun _ _ => rfl,
      fun _ => rfl, fun _ => rfl, rfl, rfl⟩
    simp only [List.mem_cons, List.not_mem_nil, or_false, not_or] at hr
    exact (State.getV_setV_ne _ x r _ hr.1).trans (State.getV_setV_ne _ regF r _ hr.2)

/-- A skip writes `pc` alone (R100). -/
theorem finishSkip_spec (c : Bool) :
    ∃ t, finishSkip c s = .next t ∧ Completed (if c then s.pc + 4#16 else s.pc + 2#16) t ∧
      Frame {} s t := by
  cases c with
  | false => exact ⟨_, rfl, ⟨rfl, rfl⟩, Frame.of_pc_status s _ _ _⟩
  | true => exact ⟨_, rfl, ⟨advance_advance_pc s, rfl⟩, Frame.of_pc_status s _ _ _⟩

/-- A skip reads no status. -/
theorem finishSkip_status (c : Bool) (r : Status) : finishSkip c { s with status := r } = finishSkip c s := by
  cases c <;> rfl

/-- A jump writes `pc` alone (R100). -/
theorem finishJump_spec (target : Word) :
    ∃ t, finishJump target s = .next t ∧ Completed target t ∧ Frame {} s t :=
  ⟨_, rfl, ⟨rfl, rfl⟩, Frame.of_pc_status s _ _ _⟩

/-- A memory operand inside memory: the instruction goes on from the advanced state (R53). -/
theorem withOperand_fits (instr : Word) (len : Nat) (body : State → Answer)
    (h : s.i.toNat + len ≤ 4096) : withOperand instr len s body = body s.advance := by
  simp [withOperand, operandFits, h]

/-- A memory operand that runs past memory: the fault is taken before any access (R53, R54, R176). -/
theorem withOperand_outside (instr : Word) (len : Nat) (body : State → Answer)
    (h : ¬ s.i.toNat + len ≤ 4096) :
    withOperand instr len s body = raise (.memOutOfRange s.pc instr (lowestOutside s.i)) s.advance := by
  simp [withOperand, operandFits, h]

theorem lowestOutside_eq (a : Word) : lowestOutside a = BitVec.ofNat 16 (max a.toNat 4096) := by
  unfold lowestOutside
  split
  · next h => dsimp only at h; rw [Nat.max_eq_right h]
  · next h =>
    dsimp only at h
    rw [Nat.max_eq_left (by omega), BitVec.ofNat_toNat, BitVec.setWidth_eq]

/-- A key index in range: the skip is decided by that key (R152, R153). -/
theorem finishKeySkip_inRange (instr : Word) (key : Byte) (skipOn : Bool → Bool) (k : Fin 16)
    (h : k.val = key.toNat) :
    finishKeySkip instr key skipOn s = finishSkip (skipOn (Keypad.isDown s.keypad k)) s := by
  have hk : key.toNat < 16 := h ▸ k.isLt
  have e : (⟨key.toNat, hk⟩ : Fin 16) = k := Fin.ext h.symm
  simp only [finishKeySkip, dif_pos hk, e]

/-- A key index above 15 is a fault (R152, R153, D13). -/
theorem finishKeySkip_outside (instr : Word) (key : Byte) (skipOn : Bool → Bool) (h : ¬ key.toNat < 16) :
    finishKeySkip instr key skipOn s = raise (.keyIndexOutOfRange s.pc instr key) s.advance := by
  simp only [finishKeySkip, dif_neg h]

/-! ## The fetch -/

theorem fetch_inRange (h : s.pc.toNat + 1 < 4096) :
    s.fetch = some (wordOfBytes (Memory.read s.mem s.pc.toNat) (Memory.read s.mem (s.pc.toNat + 1))) := by
  simp [State.fetch, Nat.not_le.mpr h]

theorem fetch_outside (h : ¬ s.pc.toNat + 1 < 4096) : s.fetch = none := by
  simp [State.fetch, Nat.not_lt.mp h]

/-! ## The display -/

/-- A cell reads as it was set, and no other cell changes (R141). -/
theorem Display.cell_setCell (d : Display) (py qy : Fin 32) (px qx : Fin 64) (on : Bool) :
    Display.cell (Display.setCell d py px on) qy qx =
      if qy = py ∧ qx = px then on else Display.cell d qy qx := by
  simp only [Display.cell, Display.setCell, Fin.getElem_fin, Vector.getElem_set]
  by_cases hy : qy = py
  · subst hy
    by_cases hx : qx = px
    · subst hx; simp
    · have : px.val ≠ qx.val := fun e => hx (Fin.ext e.symm)
      simp [hx, this]
  · have : py.val ≠ qy.val := fun e => hy (Fin.ext e.symm)
    simp [hy, this]

@[simp] theorem Display.cell_clear (py : Fin 32) (px : Fin 64) : Display.cell Display.clear py px = false := by
  simp [Display.cell, Display.clear]

/-- Two displays with the same cells are the same. -/
theorem Display.ext_cell (d e : Display) (h : ∀ py px, Display.cell d py px = Display.cell e py px) :
    d = e := by
  apply Vector.ext
  intro py hy
  apply Vector.ext
  intro px hx
  exact h ⟨py, hy⟩ ⟨px, hx⟩

/-! ## The keypad -/

/-- The key an Fx0A reports is down whenever a key is (R155(b)): what `KEY_PICK` is constrained to. -/
theorem Keypad.pick_isDown (kp : Keypad) (h : Keypad.anyDown kp = true) :
    Keypad.isDown kp (Keypad.pick kp) = true := by
  unfold Keypad.pick
  split
  · assumption
  · unfold Keypad.lowestDown
    cases hf : (List.finRange 16).find? (Keypad.isDown kp) with
    | some k => exact List.find?_some hf
    | none =>
      obtain ⟨k, hk, hd⟩ := List.any_eq_true.mp h
      exact absurd hd (List.find?_eq_none.mp hf k hk)

/-- Some key is down, said key by key. -/
theorem Keypad.anyDown_iff (kp : Keypad) : Keypad.anyDown kp = true ↔ ∃ k, Keypad.isDown kp k = true := by
  simp [Keypad.anyDown]

end Sys2Proof.Machine
end

