-- ==== Sys2Proof/Laws/Operations.lean ====
section
/-! SUPPORT. What the operand values of Operands.lean are as numbers, and what each operation of Operations.lean and the step
can do, said once. -/

namespace Sys2Proof.Machine

/-! ## Operand values as numbers -/

@[simp] theorem addrToWord_toNat (nnn : Addr) : (addrToWord nnn).toNat = nnn.toNat := by
  have := nnn.isLt
  rw [addrToWord, BitVec.toNat_setWidth]; omega

@[simp] theorem byteToWord_toNat (b : Byte) : (byteToWord b).toNat = b.toNat := by
  have := b.isLt
  rw [byteToWord, BitVec.toNat_setWidth]; omega

/-- `5 * vx` never wraps (R133). -/
theorem glyphAddress_toNat (b : Byte) : (glyphAddress b).toNat = 5 * b.toNat := by
  have := b.isLt
  rw [glyphAddress, BitVec.toNat_mul, byteToWord_toNat, show (5#16).toNat = 5 from rfl]; omega

/-- A tick stops at 0 (R160). -/
theorem countDown_toNat (t : Byte) : (countDown t).toNat = t.toNat - 1 := by
  have := t.isLt
  unfold countDown
  split
  · rw [BitVec.toNat_sub, show (1#8).toNat = 1 from rfl]; omega
  · omega

variable (s : State)

/-! ## The cycle -/

/-- A cycle of the CPU that is not halted: the fetch, then its fault or the instruction (R90, R91). -/
theorem cycle_running (h : s.isHalted = false) :
    cycle s = match s.fetch with
      | none => raise (.fetchOutOfRange s.pc (lowestOutside s.pc)) s
      | some w => exec (decodeWord w) s := by
  unfold cycle
  unfold State.isHalted at h
  revert h
  cases s.status <;> intro h
  · rfl
  · rfl
  · cases h

/-- A cycle of the halted CPU (R177). -/
theorem cycle_halted (h : s.isHalted = true) : cycle s = .next s := by
  unfold cycle
  unfold State.isHalted at h
  revert h
  cases s.status <;> intro h
  · cases h
  · cases h
  · rfl

/-! ## The host's operations -/

theorem nextIsCycle_iff : s.nextIsCycle = true ↔ s.nextMove = .executeCycle := by
  unfold State.nextIsCycle State.nextMove
  rcases s.schedule with _ | ⟨m, _⟩
  · simp
  · cases m <;> simp

theorem setKey_inRange (k : Fin 16) (down : Bool) :
    setKey k.val down s = .ok { s with keypad := s.keypad.set k.val down k.isLt } := by
  simp [setKey]

theorem setKey_outside (k : Nat) (down : Bool) (h : 15 < k) : setKey k down s = .error .keyIndex := by
  rw [setKey, dif_neg (by dsimp only; omega)]

theorem loadRom_fits (bytes : List Byte) (h : bytes.length ≤ 3584) :
    loadRom bytes s = .ok (bytes.length, { s with mem := Memory.writeBytes s.mem 0x200 bytes }) := by
  rw [loadRom, if_neg (by simpa [Config.maxRom] using h)]

theorem loadRom_tooLong (bytes : List Byte) (h : 3584 < bytes.length) : loadRom bytes s = .error .romTooLong := by
  rw [loadRom, if_pos (by simpa [Config.maxRom] using h)]

/-- A step is the cycle where the host's next operation is one. -/
theorem step_cycle (h : s.nextMove = .executeCycle) : step s = cycle s.popSchedule := by
  simp only [step, h, perform]

/-- A key move, in range or not, changes at most the keypad (R150). -/
theorem orUnchanged_setKey (k : Nat) (down : Bool) :
    orUnchanged s (setKey k down s) = { s with keypad := (orUnchanged s (setKey k down s)).keypad } := by
  unfold setKey
  split <;> rfl

/-- A load, refused or not, changes at most memory (R203). -/
theorem orUnchanged_loadRom (bytes : List Byte) :
    orUnchanged s ((loadRom bytes s).map Prod.snd) =
      { s with mem := (orUnchanged s ((loadRom bytes s).map Prod.snd)).mem } := by
  unfold loadRom
  split <;> rfl

/-! ## What a cycle and a step can do -/

/-- Everything a cycle can do: nothing while halted, the fetch fault, or one instruction (R90). -/
theorem cycle_cases (t : State) (h : cycle s = .next t) :
    (s.isHalted = true ∧ t = s) ∨
    (s.isHalted = false ∧ 4096 ≤ s.pc.toNat + 1 ∧
      t = { s with status := .halted (.fetchOutOfRange s.pc (lowestOutside s.pc)) }) ∨
    (s.isHalted = false ∧ s.pc.toNat + 1 < 4096 ∧ ∃ w, s.fetch = some w ∧ exec (decodeWord w) s = .next t) := by
  cases hh : s.isHalted with
  | true =>
    rw [cycle_halted s hh, Host.Outcome.next.injEq] at h
    exact Or.inl ⟨rfl, h.symm⟩
  | false =>
    rw [cycle_running s hh] at h
    by_cases hp : s.pc.toNat + 1 < 4096
    · rw [fetch_inRange s hp] at h
      exact Or.inr (Or.inr ⟨rfl, hp, _, fetch_inRange s hp, h⟩)
    · rw [fetch_outside s hp] at h
      exact Or.inr (Or.inl ⟨rfl, by omega, (raise_next s _ t).mp h⟩)

/-- Everything a step can do, the schedule having moved on: a cycle, a tick, a change of the keypad (none where the move is
refused), a load that fits, or the reset (R8). -/
theorem step_cases (t : State) (h : step s = .next t) :
    (s.nextMove = .executeCycle ∧ cycle s.popSchedule = .next t) ∨
    t = tickTimer s.popSchedule ∨
    (∃ kp : Keypad, t = { s.popSchedule with keypad := kp }) ∨
    (∃ bytes : List Byte, bytes.length ≤ 3584 ∧
      t = { s.popSchedule with mem := Memory.writeBytes s.popSchedule.mem 0x200 bytes }) ∨
    t = s.popSchedule.resetBlock := by
  rw [step] at h
  cases hm : s.nextMove with
  | executeCycle => rw [hm] at h; exact Or.inl ⟨rfl, h⟩
  | tickTimer => rw [hm] at h; cases h; exact Or.inr (Or.inl rfl)
  | keyDown k =>
    rw [hm] at h; cases h
    exact Or.inr (Or.inr (Or.inl ⟨_, orUnchanged_setKey s.popSchedule k true⟩))
  | keyUp k =>
    rw [hm] at h; cases h
    exact Or.inr (Or.inr (Or.inl ⟨_, orUnchanged_setKey s.popSchedule k false⟩))
  | load bytes =>
    rw [hm] at h; cases h
    by_cases hl : bytes.length ≤ 3584
    · exact Or.inr (Or.inr (Or.inr (Or.inl ⟨bytes, hl, by rw [loadRom_fits _ _ hl]; rfl⟩)))
    · exact Or.inr (Or.inr (Or.inl ⟨s.popSchedule.keypad, by rw [loadRom_tooLong _ _ (by omega)]; rfl⟩))
  | reset => rw [hm] at h; cases h; exact Or.inr (Or.inr (Or.inr (Or.inr rfl)))

end Sys2Proof.Machine
end

