-- ==== Sys2Proof/Laws/PerInstr.lean ====
section
/-! SUPPORT. The laws made per instruction. Family EncodedRow: the word of a well-formed instruction has the fixed bits of its
row of R76, `(encode i AND mask) = match`. -/

namespace Sys2Proof.Laws.EncodedRow

open Sys2Proof

/-- The word of an instruction satisfies its row (R74, R76); the default row has the mask 0. -/
def Statement (i : Instr) : Prop :=
  i.wellFormed = true → encode i &&& (rowOf i).1 = (rowOf i).2

/-! One lemma a format (R73). -/

theorem formA_row (op : Nibble) (nnn : Addr) (m : Word) (h : m.toNat = op.toNat * 4096) :
    formA op nnn &&& 0xF000#16 = m :=
  BitVec.eq_of_toNat_eq (by have := nnn.isLt; rw [maskF000_toNat, formA_toNat, h]; omega)

theorem formI_row (op : Nibble) (x : RegIndex) (kk : Byte) (m : Word) (h : m.toNat = op.toNat * 4096) :
    formI op x kk &&& 0xF000#16 = m :=
  BitVec.eq_of_toNat_eq (by have := kk.isLt; rw [maskF000_toNat, formI_toNat, h]; omega)

theorem formX_row (op : Nibble) (x : RegIndex) (kk : Byte) (m : Word)
    (h : m.toNat = op.toNat * 4096 + kk.toNat) : formI op x kk &&& 0xF0FF#16 = m :=
  BitVec.eq_of_toNat_eq (by have := kk.isLt; rw [maskF0FF_toNat, formI_toNat, h]; omega)

theorem formR_row (op : Nibble) (x y : RegIndex) (n : Nibble) (m : Word)
    (h : m.toNat = op.toNat * 4096 + n.toNat) : formR op x y n &&& 0xF00F#16 = m :=
  BitVec.eq_of_toNat_eq (by have := n.isLt; rw [maskF00F_toNat, formR_toNat, h]; omega)

theorem formD_row (op : Nibble) (x y : RegIndex) (n : Nibble) (m : Word)
    (h : m.toNat = op.toNat * 4096) : formR op x y n &&& 0xF000#16 = m :=
  BitVec.eq_of_toNat_eq (by have := n.isLt; rw [maskF000_toNat, formR_toNat, h]; omega)

theorem cls : Statement .cls := fun _ => rfl
theorem ret : Statement .ret := fun _ => rfl
theorem jp (nnn : Addr) : Statement (.jp nnn) := fun _ => formA_row _ _ _ rfl
theorem call (nnn : Addr) : Statement (.call nnn) := fun _ => formA_row _ _ _ rfl
theorem sei (x : RegIndex) (kk : Byte) : Statement (.sei x kk) := fun _ => formI_row _ _ _ _ rfl
theorem snei (x : RegIndex) (kk : Byte) : Statement (.snei x kk) := fun _ => formI_row _ _ _ _ rfl
theorem se (x y : RegIndex) : Statement (.se x y) := fun _ => formR_row _ _ _ _ _ rfl
theorem ldi (x : RegIndex) (kk : Byte) : Statement (.ldi x kk) := fun _ => formI_row _ _ _ _ rfl
theorem addi (x : RegIndex) (kk : Byte) : Statement (.addi x kk) := fun _ => formI_row _ _ _ _ rfl
theorem mov (x y : RegIndex) : Statement (.mov x y) := fun _ => formR_row _ _ _ _ _ rfl
theorem or (x y : RegIndex) : Statement (.or x y) := fun _ => formR_row _ _ _ _ _ rfl
theorem and (x y : RegIndex) : Statement (.and x y) := fun _ => formR_row _ _ _ _ _ rfl
theorem xor (x y : RegIndex) : Statement (.xor x y) := fun _ => formR_row _ _ _ _ _ rfl
theorem add (x y : RegIndex) : Statement (.add x y) := fun _ => formR_row _ _ _ _ _ rfl
theorem sub (x y : RegIndex) : Statement (.sub x y) := fun _ => formR_row _ _ _ _ _ rfl
theorem shr (x y : RegIndex) : Statement (.shr x y) := fun _ => formR_row _ _ _ _ _ rfl
theorem subn (x y : RegIndex) : Statement (.subn x y) := fun _ => formR_row _ _ _ _ _ rfl
theorem shl (x y : RegIndex) : Statement (.shl x y) := fun _ => formR_row _ _ _ _ _ rfl
theorem sne (x y : RegIndex) : Statement (.sne x y) := fun _ => formR_row _ _ _ _ _ rfl
theorem ldix (nnn : Addr) : Statement (.ldix nnn) := fun _ => formA_row _ _ _ rfl
theorem jpv0 (nnn : Addr) : Statement (.jpv0 nnn) := fun _ => formA_row _ _ _ rfl
theorem rnd (x : RegIndex) (kk : Byte) : Statement (.rnd x kk) := fun _ => formI_row _ _ _ _ rfl
theorem drw (x y : RegIndex) (n : Nibble) : Statement (.drw x y n) := fun _ => formD_row _ _ _ _ _ rfl
theorem skp (x : RegIndex) : Statement (.skp x) := fun _ => formX_row _ _ _ _ rfl
theorem sknp (x : RegIndex) : Statement (.sknp x) := fun _ => formX_row _ _ _ _ rfl
theorem getdt (x : RegIndex) : Statement (.getdt x) := fun _ => formX_row _ _ _ _ rfl
theorem waitk (x : RegIndex) : Statement (.waitk x) := fun _ => formX_row _ _ _ _ rfl
theorem setdt (x : RegIndex) : Statement (.setdt x) := fun _ => formX_row _ _ _ _ rfl
theorem setst (x : RegIndex) : Statement (.setst x) := fun _ => formX_row _ _ _ _ rfl
theorem addix (x : RegIndex) : Statement (.addix x) := fun _ => formX_row _ _ _ _ rfl
theorem font (x : RegIndex) : Statement (.font x) := fun _ => formX_row _ _ _ _ rfl
theorem bcd (x : RegIndex) : Statement (.bcd x) := fun _ => formX_row _ _ _ _ rfl
theorem stm (x : RegIndex) : Statement (.stm x) := fun _ => formX_row _ _ _ _ rfl
theorem ldm (x : RegIndex) : Statement (.ldm x) := fun _ => formX_row _ _ _ _ rfl
theorem unassigned (w : Word) : Statement (.unassigned w) := fun _ => BitVec.and_zero

end Sys2Proof.Laws.EncodedRow
end

