-- ==== Sys2Proof/Tests/Slice0.lean ====
section
/-! SUPPORT. Tests of one step on small states, and for every statement with hypotheses a witness that meets them. Expected
results are the vectors of spec 95_test_vectors.md, whose names the comments give, or are computed by hand from the rules. -/

namespace Sys2Proof.Tests

open Sys2Proof Sys2Proof.Machine

/-! ## Helpers -/

/-- The reset state with these registers. -/
def withV (rs : List (RegIndex × Byte)) : State := rs.foldl (fun s r => s.setV r.1 r.2) State.reset

/-- The state with these bytes in memory. -/
def withMem (a : Nat) (bs : List Byte) (s : State) : State := { s with mem := Memory.writeBytes s.mem a bs }

/-- The state with these keys down. -/
def withKeys (ks : List (Fin 16)) (s : State) : State :=
  { s with keypad := ks.foldl (fun (kp : Keypad) (k : Fin 16) => kp.set k.val true k.isLt) s.keypad }

/-- The state with these cells, row and column, on. -/
def withCells (cs : List (Fin 32 × Fin 64)) (s : State) : State :=
  { s with display := cs.foldl (fun d c => Display.setCell d c.1 c.2 true) s.display }

/-- The state after the instruction of a word; the state itself if it answers no next state. -/
def after (w : Word) (s : State) : State :=
  match exec (decodeWord w) s with
  | .next t => t
  | .fault _ => s
  | .refused _ => s

/-- The state after one step; the state itself if it answers no next state. -/
def stepped (s : State) : State :=
  match step s with
  | .next t => t
  | .fault _ => s
  | .refused _ => s

/-- A halted state. -/
def halted : State := { State.reset with status := .halted (.stackUnderflow 0x20C#16 0x00EE#16), pc := 0x20E#16 }

/-- Row `py` of the display, the columns that are on. -/
def rowOn (s : State) (py : Fin 32) : List Nat :=
  ((List.finRange 64).filter (Display.cell s.display py)).map Fin.val

/-! ## The configuration record -/

/-- The table of R5, row by row. -/
theorem test_params :
    Config.params = ⟨4096, 0x200, 0x1FF, 16, 8, 16, 16, 16, 15, 8, 64, 32, 16, 16, 5, 2, 8, 60⟩ := by decide

/-- The consistency the spec notes among them (91_not_in_source.md N3), and that the font table has their shape and ends below the
top of the reserved region. -/
theorem test_params_consistent :
    Config.params.reservedTop + 1 = Config.params.progBase ∧ Config.params.spMax + 1 = Config.params.stackSlots ∧
      Config.maxRom = 3584 ∧ font.length = Config.params.nGlyphs ∧
      font.all (fun g => g.length == Config.params.glyphBytes) = true ∧
      fontBase + Config.params.nGlyphs * Config.params.glyphBytes ≤ Config.params.reservedTop := by decide

/-! ## WellFormed refuses ill-formed terms -/

/-- 00E0 is CLS, 8AB4 is ADD, F365 is LDM: none of them is an unassigned word (R76, R77). -/
theorem test_wellFormed_refuses_assigned :
    (Instr.unassigned 0x00E0#16).wellFormed = false ∧ (Instr.unassigned 0x8AB4#16).wellFormed = false ∧
      (Instr.unassigned 0xF365#16).wellFormed = false ∧ (Instr.unassigned 0x5120#16).wellFormed = false ∧
      (Instr.unassigned 0x9120#16).wellFormed = false ∧ (Instr.unassigned 0xE19E#16).wellFormed = false := by decide

/-- One word of each group R77 enumerates. -/
theorem test_wellFormed_accepts_unassigned :
    (Instr.unassigned 0x0000#16).wellFormed = true ∧ (Instr.unassigned 0x5FFF#16).wellFormed = true ∧
      (Instr.unassigned 0x8AB8#16).wellFormed = true ∧ (Instr.unassigned 0x9AB1#16).wellFormed = true ∧
      (Instr.unassigned 0xE19F#16).wellFormed = true ∧ (Instr.unassigned 0xF375#16).wellFormed = true := by decide

/-! ## Decoding: one word of every row of R76, written out from its pattern, and its encoding back -/

theorem test_decode_control :
    decodeWord 0x00E0#16 = .cls ∧ decodeWord 0x00EE#16 = .ret ∧ decodeWord 0x1204#16 = .jp 0x204#12 ∧
      decodeWord 0x220A#16 = .call 0x20A#12 ∧ decodeWord 0x3AFF#16 = .sei 10 0xFF#8 ∧
      decodeWord 0x4311#16 = .snei 3 0x11#8 ∧ decodeWord 0x5120#16 = .se 1 2 ∧
      decodeWord 0x9120#16 = .sne 1 2 ∧ decodeWord 0xB2FE#16 = .jpv0 0x2FE#12 := by decide

theorem test_decode_alu :
    decodeWord 0x60EA#16 = .ldi 0 0xEA#8 ∧ decodeWord 0x73FF#16 = .addi 3 0xFF#8 ∧
      decodeWord 0x8120#16 = .mov 1 2 ∧ decodeWord 0x8121#16 = .or 1 2 ∧ decodeWord 0x8122#16 = .and 1 2 ∧
      decodeWord 0x8123#16 = .xor 1 2 ∧ decodeWord 0x8AB4#16 = .add 10 11 ∧ decodeWord 0x8125#16 = .sub 1 2 ∧
      decodeWord 0x81A6#16 = .shr 1 10 ∧ decodeWord 0x8127#16 = .subn 1 2 ∧ decodeWord 0x8ABE#16 = .shl 10 11 ∧
      decodeWord 0xC30F#16 = .rnd 3 0x0F#8 := by decide

theorem test_decode_index_display :
    decodeWord 0xA300#16 = .ldix 0x300#12 ∧ decodeWord 0xF31E#16 = .addix 3 ∧ decodeWord 0xF429#16 = .font 4 ∧
      decodeWord 0xF533#16 = .bcd 5 ∧ decodeWord 0xF255#16 = .stm 2 ∧ decodeWord 0xFF65#16 = .ldm 15 ∧
      decodeWord 0xD123#16 = .drw 1 2 0x3#4 := by decide

theorem test_decode_keypad_timers :
    decodeWord 0xE19E#16 = .skp 1 ∧ decodeWord 0xE2A1#16 = .sknp 2 ∧ decodeWord 0xF307#16 = .getdt 3 ∧
      decodeWord 0xF10A#16 = .waitk 1 ∧ decodeWord 0xF015#16 = .setdt 0 ∧ decodeWord 0xF018#16 = .setst 0 := by decide

theorem test_decode_unassigned :
    decodeWord 0x0000#16 = .unassigned 0x0000#16 ∧ decodeWord 0x00E1#16 = .unassigned 0x00E1#16 ∧
      decodeWord 0x01E0#16 = .unassigned 0x01E0#16 ∧ decodeWord 0x5FFF#16 = .unassigned 0x5FFF#16 ∧
      decodeWord 0x8ABF#16 = .unassigned 0x8ABF#16 ∧ decodeWord 0xF1FF#16 = .unassigned 0xF1FF#16 := by decide

theorem test_encode :
    encode (.jp 0x204#12) = 0x1204#16 ∧ encode (.sei 10 0xFF#8) = 0x3AFF#16 ∧ encode (.add 10 11) = 0x8AB4#16 ∧
      encode (.drw 1 2 0x3#4) = 0xD123#16 ∧ encode (.sknp 2) = 0xE2A1#16 ∧ encode (.ldm 15) = 0xFF65#16 ∧
      encodeBytes (.ldi 0 0xEA#8) = [0x60#8, 0xEA#8] := by decide

/-- High byte first, and the bytes after the instruction are left (R55, R70). -/
theorem test_decodeBytes :
    decodeBytes [0x8A#8, 0xB4#8, 0x12#8] = .ok (.add 10 11, [0x12#8]) ∧
      decodeBytes [0x8A#8] = .error .truncated := by decide

theorem test_decodeTableWord :
    decodeTableWord 16 0x8AB4 = some (.add 10 11) ∧ decodeTableWord 16 0x00EE = some .ret ∧
      decodeTableWord 16 0xFF65 = some (.ldm 15) := by decide

/-! ## Fetch and cycle -/

/-- CYC-7, with the word placed by `withFetchWord` at an odd address: `VA = 0x55`, `pc = 0x203`. -/
theorem test_fetch_odd :
    (stepped (({ State.reset with pc := 0x201#16 } : State).withFetchWord 16 0x6A55)).getV 10 = 0x55#8 ∧
      (stepped (({ State.reset with pc := 0x201#16 } : State).withFetchWord 16 0x6A55)).pc = 0x203#16 := by decide

/-- CYC-8: the last address a word can be fetched from; `pc = 0x1000` is legal to hold. -/
theorem test_fetch_last :
    (stepped (withMem 0xFFE [0x6A#8, 0x55#8] { State.reset with pc := 0xFFE#16 })).pc = 0x1000#16 := by decide

/-- CYC-9: the fetch at 0xFFF faults, with `at = 0xFFF`, `addr = 0x1000`, and `pc` stays. -/
theorem test_fetch_fault :
    (stepped { State.reset with pc := 0xFFF#16 }).status = .halted (.fetchOutOfRange 0xFFF#16 0x1000#16) ∧
      (stepped { State.reset with pc := 0xFFF#16 }).pc = 0xFFF#16 := by decide

/-- CTL-12, CTL-22, second part: beyond 4096 the recorded address is `pc` itself. -/
theorem test_fetch_fault_high :
    (stepped { State.reset with pc := 0x10FE#16 }).status =
      .halted (.fetchOutOfRange 0x10FE#16 0x10FE#16) := by decide

/-- CYC-13: a halted CPU runs nothing. -/
theorem test_halted_cycle : (stepped halted).pc = 0x20E#16 ∧ (stepped halted).isHalted = true := by decide

/-- RST-6, first cycle: cleared memory is a no-op. -/
theorem test_reset_first_step :
    (stepped State.reset).pc = 0x202#16 ∧ (stepped State.reset).status = .running := by decide

/-- CYC-1 and CYC-5: no skip, no key fault. -/
theorem test_unassigned :
    (after 0x5FFF#16 State.reset).pc = 0x202#16 ∧ (after 0xE19F#16 (withV [(1, 0xFF)])).pc = 0x202#16 := by decide

/-! ## Control transfer -/

/-- CTL-1, CTL-3. -/
theorem test_jp :
    (after 0x1204#16 State.reset).pc = 0x204#16 ∧ (after 0x1FFF#16 State.reset).pc = 0xFFF#16 := by decide

/-- CTL-4, CTL-5. -/
theorem test_call :
    (after 0x220A#16 { State.reset with pc := 0x204#16 }).stack[1] = 0x206#16 ∧
      (after 0x2300#16 { State.reset with pc := 0x204#16, sp := 14 }).sp = 15 ∧
      (after 0x2300#16 { State.reset with pc := 0x204#16, sp := 14 }).stack[15] = 0x206#16 := by decide

/-- CTL-6. -/
theorem test_call_overflow :
    (after 0x2300#16 { State.reset with pc := 0x204#16, sp := 15 }).status =
        .halted (.stackOverflow 0x204#16 0x2300#16) ∧
      (after 0x2300#16 { State.reset with pc := 0x204#16, sp := 15 }).pc = 0x206#16 := by decide

/-- CTL-9. -/
theorem test_ret :
    (after 0x00EE#16 { State.reset with pc := 0x20C#16, sp := 15, stack := State.reset.stack.set 15 0xFFF#16 }).pc
        = 0xFFF#16 ∧
      (after 0x00EE#16 { State.reset with pc := 0x20C#16, sp := 15 }).sp = 14 := by decide

/-- CTL-8. -/
theorem test_ret_underflow :
    (after 0x00EE#16 { State.reset with pc := 0x20C#16 }).status =
        .halted (.stackUnderflow 0x20C#16 0x00EE#16) ∧
      (after 0x00EE#16 { State.reset with pc := 0x20C#16 }).pc = 0x20E#16 := by decide

/-- CTL-10, CTL-11, CTL-12. -/
theorem test_sei :
    (after 0x3000#16 { State.reset with pc := 0x208#16 }).pc = 0x20C#16 ∧
      (after 0x3000#16 { withV [(0, 1)] with pc := 0x208#16 }).pc = 0x20A#16 ∧
      (after 0x3AFF#16 { withV [(10, 0xFF)] with pc := 0xFFE#16 }).pc = 0x1002#16 := by decide

/-- CTL-13, CTL-14. -/
theorem test_snei :
    (after 0x4311#16 { withV [(3, 0x10)] with pc := 0x300#16 }).pc = 0x304#16 ∧
      (after 0x4310#16 { withV [(3, 0x10)] with pc := 0x300#16 }).pc = 0x302#16 := by decide

/-- CTL-15, CTL-16. -/
theorem test_se :
    (after 0x5120#16 (withV [(1, 7), (2, 7)])).pc = 0x204#16 ∧
      (after 0x5120#16 (withV [(1, 7), (2, 8)])).pc = 0x202#16 := by decide

/-- CTL-18, CTL-20. -/
theorem test_sne :
    (after 0x9120#16 (withV [(1, 7), (2, 8)])).pc = 0x204#16 ∧
      (after 0x9FF0#16 (withV [(15, 1)])).pc = 0x202#16 := by decide

/-- CTL-22, CTL-23: V0 and no mask. -/
theorem test_jpv0 :
    (after 0xBFFF#16 (withV [(0, 0xFF)])).pc = 0x10FE#16 ∧
      (after 0xB2FE#16 (withV [(0, 3), (2, 0x55)])).pc = 0x301#16 := by decide

/-! ## Arithmetic and logic -/

/-- ALU-1, ALU-2. -/
theorem test_ldi :
    (after 0x60EA#16 State.reset).getV 0 = 0xEA#8 ∧ (after 0x6F07#16 State.reset).getV 15 = 0x07#8 := by decide

/-- ALU-3, ALU-5. -/
theorem test_addi :
    (after 0x7001#16 (withV [(0, 0xFF), (15, 0x55)])).getV 0 = 0x00#8 ∧
      (after 0x7001#16 (withV [(0, 0xFF), (15, 0x55)])).getV 15 = 0x55#8 ∧
      (after 0x7F02#16 (withV [(15, 0xFF)])).getV 15 = 0x01#8 := by decide

/-- ALU-6. -/
theorem test_mov :
    (after 0x8120#16 (withV [(2, 0x33)])).getV 1 = 0x33#8 ∧ (after 0x8120#16 (withV [(2, 0x33)])).getV 2 = 0x33#8 := by
  decide

/-- ALU-7. -/
theorem test_or :
    (after 0x8121#16 (withV [(1, 0xF0), (2, 0x0F), (15, 0x77)])).getV 1 = 0xFF#8 ∧
      (after 0x8121#16 (withV [(1, 0xF0), (2, 0x0F), (15, 0x77)])).getV 15 = 0x77#8 := by decide

/-- ALU-8. -/
theorem test_and :
    (after 0x8122#16 (withV [(1, 0xF0), (2, 0x3C), (15, 0x77)])).getV 1 = 0x30#8 ∧
      (after 0x8122#16 (withV [(1, 0xF0), (2, 0x3C), (15, 0x77)])).getV 15 = 0x77#8 := by decide

/-- ALU-9, ALU-10. -/
theorem test_xor :
    (after 0x8123#16 (withV [(1, 0xF0), (2, 0x3C), (15, 0x77)])).getV 1 = 0xCC#8 ∧
      (after 0x8113#16 (withV [(1, 0xA5)])).getV 1 = 0x00#8 := by decide

/-- ALU-11, ALU-13. -/
theorem test_add :
    (after 0x8124#16 (withV [(1, 0xC8), (2, 0x64)])).getV 1 = 0x2C#8 ∧
      (after 0x8124#16 (withV [(1, 0xC8), (2, 0x64)])).getV 15 = 0x01#8 ∧
      (after 0x8124#16 (withV [(1, 0xFF), (15, 1)])).getV 15 = 0x00#8 := by decide

/-- ALU-16, ALU-18: VF as destination and as source. -/
theorem test_add_vf :
    (after 0x8F14#16 (withV [(15, 0xF0), (1, 0x20)])).getV 15 = 0x01#8 ∧
      (after 0x81F4#16 (withV [(1, 0xFF), (15, 0x01)])).getV 1 = 0x00#8 := by decide

/-- ALU-19, ALU-21. -/
theorem test_sub :
    (after 0x8125#16 (withV [(1, 0x05), (2, 0x0A)])).getV 1 = 0xFB#8 ∧
      (after 0x8125#16 (withV [(1, 0x05), (2, 0x0A)])).getV 15 = 0x00#8 ∧
      (after 0x8125#16 (withV [(1, 0x07), (2, 0x07)])).getV 15 = 0x01#8 := by decide

/-- ALU-24: VF ends as the flag. -/
theorem test_sub_vf : (after 0x8F15#16 (withV [(15, 0x03), (1, 0x05)])).getV 15 = 0x00#8 := by decide

/-- ALU-26: `y` is ignored. -/
theorem test_shr :
    (after 0x81A6#16 (withV [(1, 0x81), (10, 0x7E)])).getV 1 = 0x40#8 ∧
      (after 0x81A6#16 (withV [(1, 0x81), (10, 0x7E)])).getV 15 = 0x01#8 := by decide

/-- ALU-28: the shifted value stands. -/
theorem test_shr_vf : (after 0x8F06#16 (withV [(15, 0x05)])).getV 15 = 0x02#8 := by decide

/-- ALU-29, ALU-30. -/
theorem test_subn :
    (after 0x8127#16 (withV [(1, 0x05), (2, 0x0A)])).getV 1 = 0x05#8 ∧
      (after 0x8127#16 (withV [(1, 0x0A), (2, 0x05)])).getV 1 = 0xFB#8 ∧
      (after 0x8127#16 (withV [(1, 0x0A), (2, 0x05)])).getV 15 = 0x00#8 := by decide

/-- ALU-33, ALU-34. -/
theorem test_shl :
    (after 0x810E#16 (withV [(1, 0x81)])).getV 1 = 0x02#8 ∧ (after 0x810E#16 (withV [(1, 0x81)])).getV 15 = 0x01#8 ∧
      (after 0x810E#16 (withV [(1, 0x7F), (15, 1)])).getV 15 = 0x00#8 := by decide

/-- ALU-37: the shifted value stands. -/
theorem test_shl_vf : (after 0x8F0E#16 (withV [(15, 0x41)])).getV 15 = 0x82#8 := by decide

/-- ALU-39, for every random byte: `kk = 0` gives 0. -/
theorem test_rnd_masked : (after 0xC300#16 (withV [(3, 0x99)])).getV 3 = 0x00#8 :=
  show Config.randomByte 0 &&& 0x00#8 = 0x00#8 from BitVec.and_zero

/-- Each draw takes the next random byte. -/
theorem test_rnd_draws : (after 0xC3FF#16 State.reset).rndDraws = 1 := by decide

/-! ## Index register and memory -/

/-- IDX-2. -/
theorem test_ldix : (after 0xAFFF#16 { State.reset with i := 0x1234#16 }).i = 0x0FFF#16 := by decide

/-- IDX-4, IDX-5. -/
theorem test_addix :
    (after 0xF21E#16 { withV [(2, 1)] with i := 0xFFFF#16 }).i = 0x0000#16 ∧
      (after 0xF21E#16 { withV [(2, 1)] with i := 0x0FFF#16 }).i = 0x1000#16 := by decide

/-- IDX-6, IDX-10. -/
theorem test_font :
    (after 0xF429#16 (withV [(4, 0x0A)])).i = 0x0032#16 ∧ (after 0xF429#16 (withV [(4, 0xFF)])).i = 0x04FB#16 := by
  decide

/-- MEM-6: the last legal `I`. -/
theorem test_bcd :
    Memory.readBytes (after 0xF533#16 { withV [(5, 199)] with i := 0xFFD#16 }).mem 0xFFD 3 = [1#8, 9#8, 9#8] := by
  decide

/-- MEM-7, MEM-8. -/
theorem test_bcd_fault :
    (after 0xF533#16 { withV [(5, 199)] with i := 0xFFE#16 }).status =
        .halted (.memOutOfRange 0x200#16 0xF533#16 0x1000#16) ∧
      (after 0xF533#16 { withV [(5, 199)] with i := 0xFFE#16 }).mem = [] ∧
      (after 0xF533#16 { withV [(5, 199)] with i := 0xFFFF#16 }).status =
        .halted (.memOutOfRange 0x200#16 0xF533#16 0xFFFF#16) := by decide

/-- The example of R135. -/
theorem test_stm :
    Memory.readBytes (after 0xF255#16 { withV [(0, 1), (1, 2), (2, 3), (3, 4)] with i := 0x300#16 }).mem 0x300 4 =
      [1#8, 2#8, 3#8, 0#8] := by decide

/-- R135: `I + x = 4096` stores nothing. -/
theorem test_stm_fault :
    (after 0xF155#16 { withV [(0, 1), (1, 2)] with i := 0xFFF#16 }).mem = [] ∧
      (after 0xF155#16 { withV [(0, 1), (1, 2)] with i := 0xFFF#16 }).isHalted = true := by decide

/-- The example of R136, the register above `x` unchanged. -/
theorem test_ldm :
    (List.map (after 0xF265#16 (withMem 0x300 [2#8, 3#8, 4#8] { withV [(3, 9)] with i := 0x300#16 })).getV [0, 1, 2, 3]) =
      [2#8, 3#8, 4#8, 9#8] := by decide

/-- Fx65 with `I = 0`: the font as reset leaves it, glyph 0 (R35). -/
theorem test_ldm_font :
    (List.map (after 0xF465#16 State.reset).getV [0, 1, 2, 3, 4]) = [0xF0#8, 0x90#8, 0x90#8, 0x90#8, 0xF0#8] := by decide

/-! ## The display -/

/-- DRW-1: the wrap at the right edge. -/
theorem test_drw_wrap :
    rowOn (after 0xD011#16 (withMem 0x20C [0xFF#8] { withV [(0, 60)] with i := 0x20C#16 })) 0 =
      [0, 1, 2, 3, 60, 61, 62, 63] := by decide

/-- DRW-8: bit 7 is the leftmost pixel; one colliding pixel is enough. -/
theorem test_drw_collision :
    rowOn (after 0xD011#16 (withCells [(5, 11)] (withMem 0x300 [0xC0#8] { withV [(0, 10), (1, 5)] with i := 0x300#16 }))) 5
        = [10] ∧
      (after 0xD011#16 (withCells [(5, 11)]
        (withMem 0x300 [0xC0#8] { withV [(0, 10), (1, 5)] with i := 0x300#16 }))).getV 15 = 0x01#8 := by decide

/-- DRW-13, DRW-14: `n = 0` at the end of memory and past it. -/
theorem test_drw_bounds :
    (after 0xD010#16 { withV [(15, 1)] with i := 0x1000#16 }).getV 15 = 0x00#8 ∧
      (after 0xD010#16 { withV [(15, 1)] with i := 0x1001#16 }).getV 15 = 0x01#8 ∧
      (after 0xD010#16 { withV [(15, 1)] with i := 0x1001#16 }).status =
        .halted (.memOutOfRange 0x200#16 0xD010#16 0x1001#16) := by decide

/-- DRW-21. -/
theorem test_cls :
    rowOn (after 0x00E0#16 (withCells [(5, 5)] (withV [(15, 1)]))) 5 = [] ∧
      (after 0x00E0#16 (withCells [(5, 5)] (withV [(15, 1)]))).getV 15 = 0x01#8 := by decide

/-! ## Keypad and timers -/

/-- KEY-1, KEY-2. -/
theorem test_skp :
    (after 0xE29E#16 (withKeys [7] { withV [(2, 7)] with pc := 0x210#16 })).pc = 0x214#16 ∧
      (after 0xE29E#16 (withKeys [6, 8] { withV [(2, 7)] with pc := 0x210#16 })).pc = 0x212#16 := by decide

/-- KEY-7. -/
theorem test_skp_fault :
    (after 0xE29E#16 (withKeys [0] { withV [(2, 16)] with pc := 0x210#16 })).status =
      .halted (.keyIndexOutOfRange 0x210#16 0xE29E#16 16#8) := by decide

/-- KEY-3, KEY-3b. -/
theorem test_sknp :
    (after 0xE2A1#16 { withV [(2, 7)] with pc := 0x210#16 }).pc = 0x214#16 ∧
      (after 0xE2A1#16 (withKeys [7] { withV [(2, 7)] with pc := 0x210#16 })).pc = 0x212#16 := by decide

/-- KEY-8. -/
theorem test_sknp_fault :
    (after 0xE2A1#16 { withV [(2, 0xFF)] with pc := 0x210#16 }).status =
      .halted (.keyIndexOutOfRange 0x210#16 0xE2A1#16 0xFF#8) := by decide

/-- KEY-4, cycle 1. -/
theorem test_waitk_waits :
    (after 0xF10A#16 { withV [(1, 0xEE)] with pc := 0x204#16 }).pc = 0x204#16 ∧
      (after 0xF10A#16 { withV [(1, 0xEE)] with pc := 0x204#16 }).getV 1 = 0xEE#8 ∧
      (after 0xF10A#16 { withV [(1, 0xEE)] with pc := 0x204#16 }).result = .awaitKey := by decide

/-- KEY-5: with a key already down the wait ends at once, whatever key is preferred. -/
theorem test_waitk_completes :
    (after 0xF10A#16 (withKeys [7] { withV [(1, 0xEE)] with pc := 0x204#16 })).pc = 0x206#16 ∧
      (after 0xF10A#16 (withKeys [7] { withV [(1, 0xEE)] with pc := 0x204#16 })).status = .running := by decide

/-- TMR-1. -/
theorem test_getdt : (after 0xF307#16 { State.reset with dt := 0x1E#8 }).getV 3 = 0x1E#8 := by decide

/-- TMR-3. -/
theorem test_setdt : (after 0xF015#16 { withV [(0, 0x3C)] with dt := 5#8 }).dt = 0x3C#8 := by decide

/-- TMR-5. -/
theorem test_setst :
    (after 0xF018#16 (withV [(0, 5)])).st = 5#8 ∧ (after 0xF018#16 (withV [(0, 5)])).dt = 0#8 := by decide

/-! ## The host's operations -/

/-- TMR-7, ticks 1 and 3; TMR-9: a tick in the halted state. -/
theorem test_tick :
    (tickTimer { State.reset with dt := 2#8, st := 1#8 }).dt = 1#8 ∧
      (tickTimer { State.reset with dt := 2#8, st := 1#8 }).st = 0#8 ∧ (tickTimer State.reset).dt = 0#8 ∧
      (stepped { halted with dt := 3#8, schedule := [.tickTimer] }).dt = 2#8 := by decide

/-- KEY-11: a bad index is refused and changes nothing. -/
theorem test_keys :
    Keypad.isDown (stepped { State.reset with schedule := [.keyDown 3] }).keypad 3 = true ∧
      stepped { State.reset with schedule := [.keyDown 16] } = State.reset ∧ isDown 16 State.reset = .error .keyIndex := by
  decide

/-- RST-2: the bytes go to 0x200 and `pc` stays. -/
theorem test_load :
    Memory.readBytes (stepped { State.reset with schedule := [.load [1#8, 2#8, 3#8]] }).mem 0x1FF 5 =
        [0#8, 1#8, 2#8, 3#8, 0#8] ∧
      (stepped { State.reset with schedule := [.load [1#8, 2#8, 3#8]] }).pc = 0x200#16 := by decide

/-- RST-1: reset from a halted state with other values. -/
theorem test_reset :
    stepped { halted with i := 0x345#16, sp := 4, dt := 8#8, mem := [(0, 0#8), (0x300, 0x55#8)], schedule := [.reset] } =
      State.reset := by decide

/-! ## Witnesses: for each statement with hypotheses, states and operands that meet them -/

theorem test_witness_DecodeUndoesEncode :
    (Instr.drw 15 0 0xF#4).wellFormed = true ∧ (Instr.unassigned 0x5FFF#16).wellFormed = true := by decide

theorem test_witness_EachWordSelectsItsRow :
    (0xF00F#16, 0x8004#16) ∈ opcodeRows ∧ rowMatches 0x8AB4#16 (0xF00F#16, 0x8004#16) = true ∧
      opcodeRows.all (fun row => !rowMatches 0x5FFF#16 row) = true := by decide

theorem test_witness_UnassignedWordsAsEnumerated :
    isUnassignedWord 0x0000#16 = true ∧ isUnassignedWord 0x00E0#16 = false := by decide

/-- At the last address a word can be fetched from. -/
theorem test_witness_StepRunsDecodedInstruction :
    ∃ s : State, s.isHalted = false ∧ s.nextIsCycle = true ∧ s.pc.toNat + 1 < 4096 ∧
      decodeBytes (Memory.readBytes s.mem s.pc.toNat 2) = .ok (.ldi 10 0x55#8, []) :=
  ⟨withMem 0xFFE [0x6A#8, 0x55#8] { State.reset with pc := 0xFFE#16 }, by decide, by decide, by decide, by decide⟩

/-- The same with a cycle scheduled. -/
theorem test_witness_StepRunsDecodedInstruction_scheduled :
    ({ State.reset with schedule := [.executeCycle, .tickTimer] } : State).nextIsCycle = true ∧
      decodeBytes (Memory.readBytes State.reset.mem State.reset.pc.toNat 2) = .ok (.unassigned 0x0000#16, []) := by decide

/-- Both sides of the boundary: 4095 faults, 4094 does not. -/
theorem test_witness_FetchBigEndianOrFault :
    ({ State.reset with pc := 0xFFF#16 } : State).isHalted = false ∧ (0xFFF#16 : Word).toNat + 1 ≥ 4096 ∧
      (0xFFE#16 : Word).toNat + 1 < 4096 := by decide

theorem test_witness_HaltedCyclesChangeNothing :
    halted.isHalted = true ∧ (halted.schedule.all (fun m => m == .executeCycle)) = true ∧
      (({ halted with schedule := [.executeCycle] } : State).schedule.all (fun m => m == .executeCycle)) = true := by decide

theorem test_witness_HaltLeftOnlyByReset :
    halted.isHalted = true ∧ halted.nextMove ≠ .reset ∧
      ({ halted with schedule := [.load [1#8]] } : State).nextMove ≠ .reset ∧
      ({ halted with schedule := [.reset] } : State).nextMove = .reset := by decide

/-- For PcAfterEveryInstruction, RegisterWritersAsListed, ResultMirrorsStatus and SoundTimerIsNeverRead, whose hypotheses are that
`exec` answers a next state (not halted; a register the instruction does not write): of a jump, and of a block load. -/
theorem test_witness_exec_next :
    (∃ t, exec (.jp 0x204#12) State.reset = .next t ∧ t.isHalted = false) ∧
      ∃ t, exec (.ldm 2) State.reset = .next t ∧ t.isHalted = false ∧ (3 : RegIndex) ∉ writtenRegisters (.ldm 2) :=
  ⟨⟨_, rfl, by decide⟩, ⟨_, rfl, by decide, by decide⟩⟩

/-- Both clauses at the edges of the stored bytes. -/
theorem test_witness_MemoryWritersAsListed :
    ∃ s t : State, exec (.bcd 0) s = .next t ∧ 0x2FF < s.i.toNat ∧ s.i.toNat + storedLength (.bcd 0) ≤ 0x303 :=
  ⟨{ State.reset with i := 0x300#16 }, _, rfl, by decide, by decide⟩

/-- For TimersAndKeypadWriters, StackWriters and IndexAndDisplayWriters: the premises that exclude an instruction. -/
theorem test_witness_writers :
    (∃ t, exec (.ldi 1 2#8) State.reset = .next t) ∧ (∀ x, Instr.ldi 1 2#8 ≠ .setdt x) ∧
      (∀ x, Instr.ldi 1 2#8 ≠ .setst x) ∧ (∀ n, Instr.ldi 1 2#8 ≠ .call n) ∧ Instr.ldi 1 2#8 ≠ .ret ∧
      (∀ n, Instr.ldi 1 2#8 ≠ .ldix n) ∧ (∀ x y n, Instr.ldi 1 2#8 ≠ .drw x y n) :=
  ⟨⟨_, rfl⟩, by simp, by simp, by simp, by simp, by simp, by simp⟩

/-- Each row of R170's table on both sides of its condition. -/
theorem test_witness_FaultsExactlyAsListed_memory :
    faultOf (.drw 0 1 0x0#4) { State.reset with i := 0x1000#16 } = none ∧
      faultOf (.drw 0 1 0x0#4) { State.reset with i := 0x1001#16 } =
        some (.memOutOfRange 0x200#16 0xD010#16 0x1001#16) ∧
      faultOf (.bcd 5) { State.reset with i := 0xFFD#16 } = none ∧
      faultOf (.bcd 5) { State.reset with i := 0xFFE#16 } = some (.memOutOfRange 0x200#16 0xF533#16 0x1000#16) ∧
      faultOf (.stm 15) { State.reset with i := 0xFF0#16 } = none ∧
      faultOf (.stm 15) { State.reset with i := 0xFF1#16 } = some (.memOutOfRange 0x200#16 0xFF55#16 0x1000#16) ∧
      faultOf (.ldm 15) { State.reset with i := 0xFF1#16 } = some (.memOutOfRange 0x200#16 0xFF65#16 0x1000#16) := by decide

theorem test_witness_FaultsExactlyAsListed_stack_key :
    faultOf (.call 0x300#12) { State.reset with sp := 14 } = none ∧
      faultOf (.call 0x300#12) { State.reset with sp := 15 } = some (.stackOverflow 0x200#16 0x2300#16) ∧
      faultOf .ret { State.reset with sp := 1 } = none ∧
      faultOf .ret State.reset = some (.stackUnderflow 0x200#16 0x00EE#16) ∧
      faultOf (.skp 2) (withV [(2, 15)]) = none ∧
      faultOf (.skp 2) (withV [(2, 16)]) = some (.keyIndexOutOfRange 0x200#16 0xE29E#16 16#8) ∧
      faultOf (.sknp 2) (withV [(2, 16)]) = some (.keyIndexOutOfRange 0x200#16 0xE2A1#16 16#8) := by decide

theorem test_witness_StepKeepsMemoryCanonical :
    ∃ s t : State, MemCanonical s ∧ step s = .next t :=
  ⟨{ State.reset with mem := [(0, 0#8), (0x300, 5#8)] }, _,
    (by decide : Memory.wf [(0, 0#8), (0x300, 5#8)]), rfl⟩

/-- The highest `pc` and return address. -/
theorem test_witness_StepKeepsPcBounded : ∃ s t : State, PcBounded s ∧ step s = .next t :=
  ⟨{ State.reset with pc := 0x10FE#16, sp := 1, stack := State.reset.stack.set 1 0x1000#16 }, _,
    ⟨by decide, by decide, by decide⟩, rfl⟩

theorem test_witness_ResetLeavesTheTable :
    ({ halted with schedule := [.reset] } : State).nextMove = .reset ∧ State.reset.nextMove = .executeCycle ∧
      fontByte 15 4 = 0x80#8 := by decide

/-- For the five statements of R117 to R121: the destination may be VF or not. -/
theorem test_witness_flag_writers : (1 : RegIndex) ≠ regF ∧ (15 : RegIndex) = regF := by decide

theorem test_witness_CallPushesReturnAddress :
    ({ State.reset with sp := 14 } : State).sp.val < 15 ∧ ({ State.reset with sp := 15 } : State).sp.val = 15 := by decide

theorem test_witness_RetPopsReturnAddress :
    0 < ({ State.reset with sp := 1 } : State).sp.val ∧ State.reset.sp.val = 0 := by decide

theorem test_witness_CallThenRetReturns :
    ∃ s u : State, s.sp.val < 15 ∧ ∃ t, exec (.call 0x300#12) s = .next t ∧ u.sp = t.sp ∧ u.stack = t.stack :=
  ⟨{ State.reset with sp := 14 }, after 0x2300#16 { State.reset with sp := 14 }, by decide, _, rfl, by decide, by decide⟩

theorem test_witness_BcdStoresDigits : (0xFFD#16 : Word).toNat ≤ 4093 ∧ (0xFFE#16 : Word).toNat > 4093 := by decide

/-- For StmStoresLowRegisters and LdmLoadsLowRegisters. -/
theorem test_witness_StmLdm :
    (0xFF0#16 : Word).toNat + (15 : RegIndex).val ≤ 4095 ∧ (0xFF1#16 : Word).toNat + (15 : RegIndex).val > 4095 ∧
      (2 : RegIndex) ≤ 15 ∧ (3 : RegIndex) < 15 := by decide

theorem test_witness_StoredRegistersLoadBack :
    ∃ s u t : State, s.i.toNat + (1 : RegIndex).val ≤ 4095 ∧ exec (.stm 1) s = .next t ∧ u.i = s.i ∧ u.mem = t.mem :=
  ⟨{ withV [(0, 7)] with i := 0x300#16 }, after 0xF155#16 { withV [(0, 7)] with i := 0x300#16 }, _,
    by decide, rfl, by decide, by decide⟩

/-- P7 of the vectors: `pc = 0x206`, `I = 0x208`, `x = 1`. -/
theorem test_witness_StoreIsFetchedNext :
    1 ≤ (1 : RegIndex).val ∧ (0x208#16 : Word).toNat = (0x206#16 : Word).toNat + 2 ∧
      (0x208#16 : Word).toNat + (1 : RegIndex).val ≤ 4095 := by decide

theorem test_witness_DrwDrawsAndFlagsCollision :
    (0xFFF#16 : Word).toNat + (0x1#4 : Nibble).toNat ≤ 4096 ∧ (0x1000#16 : Word).toNat + (0x0#4 : Nibble).toNat ≤ 4096 ∧
      (0xFFF#16 : Word).toNat + (0x2#4 : Nibble).toNat > 4096 := by decide

/-- Fifteen rows; a covered cell and, by the 7 low bits being 0, a cell beside it that is not. -/
theorem test_witness_DrawTogglesSpriteCells :
    (List.replicate 15 0x80#8).length ≤ 15 ∧ spriteCovers 0 20 (List.replicate 15 0x80#8) 2 0 ∧
      ¬ spriteCovers 0 20 [0x80#8] 20 1 := by
  refine ⟨by decide, ⟨14, 0, by decide, ⟨0x80#8, by decide, by decide⟩, by decide, by decide⟩, ?_⟩
  rintro ⟨r, c, hc, ⟨row, hrow, hbit⟩, hx, _⟩
  have hx' : (0 + c) % 64 = 1 := hx
  have hc1 : c = 1 := by omega
  subst hc1
  rcases r with _ | r
  · have : row = 0x80#8 := by simpa using hrow.symm
    subst this
    exact absurd hbit (by decide)
  · simp at hrow

/-- Over a clear display, a sprite with a set bit. -/
theorem test_witness_DrawTwiceErases :
    ([0x00#8, 0x01#8] : List Byte).length ≤ 15 ∧
      (∀ py px, spriteCovers 60 31 [0x00#8, 0x01#8] py px → Display.cell Display.clear py px = false) ∧
      ∃ row ∈ ([0x00#8, 0x01#8] : List Byte), row ≠ 0x00#8 :=
  ⟨by decide, fun _ _ _ => by simp [Display.cell, Display.clear], ⟨0x01#8, by simp, by decide⟩⟩

theorem test_witness_KeySkipsFollowTheKey :
    ((withV [(2, 15)]).getV 2).toNat = (15 : Fin 16).val ∧ ((withV []).getV 2).toNat = (0 : Fin 16).val := by decide

theorem test_witness_WaitkPollsTheKeypad :
    (∀ k, Keypad.isDown State.reset.keypad k = false) ∧ ∃ k, Keypad.isDown (withKeys [15] State.reset).keypad k = true :=
  ⟨by decide, 15, by decide⟩

theorem test_witness_TickCountsDownToZero :
    ({ State.reset with schedule := [.tickTimer] } : State).nextMove = .tickTimer := by decide

theorem test_witness_KeyMovesSetOneFlag :
    ({ State.reset with schedule := [.keyDown 15] } : State).nextMove = .keyDown (15 : Fin 16).val ∧
      ({ State.reset with schedule := [.keyUp 15] } : State).nextMove = .keyUp (15 : Fin 16).val ∧
      ({ State.reset with schedule := [.keyUp 16] } : State).nextMove = .keyUp 16 ∧ 15 < 16 ∧
      (14 : Fin 16) ≠ 15 := by decide

/-- A ROM that just fits, and one a byte longer. -/
theorem test_witness_LoadCopiesTheRom :
    (List.replicate 3584 0x01#8).length ≤ 3584 ∧ 3584 < (List.replicate 3585 0x01#8).length ∧
      ({ State.reset with schedule := [.load [0x01#8]] } : State).nextMove = .load [0x01#8] :=
  ⟨by rw [List.length_replicate], by rw [List.length_replicate]; omega, rfl⟩

theorem test_witness_DisplayGetAndSet :
    displayGet 63 31 State.reset = .ok false ∧ (64 ≤ 64 ∨ 32 ≤ 0) ∧ (64 ≤ 0 ∨ 32 ≤ 32) := by decide

end Sys2Proof.Tests
end

section
/-! SUPPORT. What one instruction does, said once for all 35 of them: it raises the fault of R170's table and changes nothing
but `pc` and the status, or it leaves `pc` where R27 says and changes only its footprint. The rules about who writes what, and
the bound on `pc`, follow from this. -/

namespace Sys2Proof.Machine

/-! ## The footprint of an instruction -/

/-- What an instruction that raises no fault may change, read off the rules that list the writers: R25 (registers), R26 (`I`),
R30 and R31 (stack), R33, R34, R37, R56 (memory) and R122. -/
def footprint (i : Instr) (s : State) : MayChange :=
  match i with
  | .cls => { display := true }
  | .ret | .call _ => { stack := true }
  | .ldix _ | .addix _ | .font _ => { i := true }
  | .rnd x _ => { v := [x], rndDraws := true }
  | .drw _ _ _ => { v := [regF], display := true }
  | .setdt _ => { dt := true }
  | .setst _ => { st := true }
  | .bcd _ | .stm _ => { memFrom := s.i.toNat, memLen := storedLength i }
  | _ => { v := writtenRegisters i }

theorem footprint_v (i : Instr) (s : State) : (footprint i s).v = writtenRegisters i := by
  cases i <;> rfl

theorem footprint_i (i : Instr) (s : State) (hldix : ∀ nnn, i ≠ .ldix nnn) (haddix : ∀ x, i ≠ .addix x)
    (hfont : ∀ x, i ≠ .font x) : (footprint i s).i = false := by
  cases i with
  | ldix nnn => exact absurd rfl (hldix nnn)
  | addix x => exact absurd rfl (haddix x)
  | font x => exact absurd rfl (hfont x)
  | _ => rfl

theorem footprint_display (i : Instr) (s : State) (hcls : i ≠ .cls) (hdrw : ∀ x y n, i ≠ .drw x y n) :
    (footprint i s).display = false := by
  cases i with
  | cls => exact absurd rfl hcls
  | drw x y n => exact absurd rfl (hdrw x y n)
  | _ => rfl

theorem footprint_stack (i : Instr) (s : State) (hcall : ∀ nnn, i ≠ .call nnn) (hret : i ≠ .ret) :
    (footprint i s).stack = false := by
  cases i with
  | call nnn => exact absurd rfl (hcall nnn)
  | ret => exact absurd rfl hret
  | _ => rfl

/-! ## The effect of an instruction -/

/-- What `exec i` may make of `s`: the table's fault (R170, R174), or a state that is not halted, with `pc` as R27 gives it and
nothing changed outside the footprint. -/
inductive Effect (i : Instr) (s : State) : State → Prop where
  | faulted (r : Fault) (listed : faultOf i s = some r) :
      Effect i s { s with pc := s.pc + 2#16, status := .halted r }
  | completed (t : State) (noFault : faultOf i s = none) (running : t.isHalted = false)
      (pc : t.pc = pcAfter i s) (frame : Frame (footprint i s) s t) : Effect i s t

variable {i : Instr} {s t : State}

/-- Outside the footprint nothing changes, fault or not. -/
theorem Effect.frame (h : Effect i s t) : Frame (footprint i s) s t := by
  cases h with
  | faulted r _ => exact Frame.of_pc_status s _ _ _
  | completed _ _ _ _ frame => exact frame

/-- A completed instruction (R96) that has no fault to raise. -/
theorem Effect.of_completed (noFault : faultOf i s = none) (hc : Completed (pcAfter i s) t)
    (frame : Frame (footprint i s) s t) : Effect i s t := by
  obtain ⟨hpc, hrun⟩ := hc
  exact .completed t noFault (by rw [State.isHalted, hrun]) hpc frame

/-! One lemma a shape. Each gives the one answer the shape has, so that `exec` of an instruction of that shape has it too. -/

/-- A register written, nothing else (R111 to R116, R156). -/
theorem effect_finishV {x : RegIndex} {b : Byte} (hf : faultOf i s = none) (hp : pcAfter i s = s.pc + 2#16)
    (hw : footprint i s = { v := [x] }) : ∃ t, finishV x b s = .next t ∧ Effect i s t := by
  obtain ⟨t, ht, hc, -, frame⟩ := finishV_spec s x b
  exact ⟨t, ht, .of_completed hf (hp ▸ hc) (hw ▸ frame)⟩

theorem effect_finishResultThenFlag {x : RegIndex} {b : Byte} {f : Bool} (hf : faultOf i s = none)
    (hp : pcAfter i s = s.pc + 2#16) (hw : footprint i s = { v := [x, regF] }) :
    ∃ t, finishResultThenFlag x b f s = .next t ∧ Effect i s t := by
  obtain ⟨t, ht, hc, -, -, frame⟩ := finishResultThenFlag_spec s x b f
  exact ⟨t, ht, .of_completed hf (hp ▸ hc) (hw ▸ frame)⟩

theorem effect_finishFlagThenResult {x : RegIndex} {b : Byte} {f : Bool} (hf : faultOf i s = none)
    (hp : pcAfter i s = s.pc + 2#16) (hw : footprint i s = { v := [x, regF] }) :
    ∃ t, finishFlagThenResult x b f s = .next t ∧ Effect i s t := by
  obtain ⟨t, ht, hc, -, -, frame⟩ := finishFlagThenResult_spec s x b f
  exact ⟨t, ht, .of_completed hf (hp ▸ hc) (hw ▸ frame)⟩

/-- A skip (R100): R27 states its condition as a proposition, the model decides it as `c`. -/
theorem effect_finishSkip {c : Bool} (hf : faultOf i s = none)
    (hp : pcAfter i s = if c then s.pc + 4#16 else s.pc + 2#16) (hw : footprint i s = {}) :
    ∃ t, finishSkip c s = .next t ∧ Effect i s t := by
  obtain ⟨t, ht, hc, frame⟩ := finishSkip_spec s c
  exact ⟨t, ht, .of_completed hf (hp ▸ hc) (hw ▸ frame)⟩

/-- A jump (R100). -/
theorem effect_finishJump {target : Word} (hf : faultOf i s = none) (hp : pcAfter i s = target)
    (hw : footprint i s = {}) : ∃ t, finishJump target s = .next t ∧ Effect i s t := by
  obtain ⟨t, ht, hc, frame⟩ := finishJump_spec s target
  exact ⟨t, ht, .of_completed hf (hp ▸ hc) (hw ▸ frame)⟩

/-- A memory operand: the check first, then the body on the advanced state (R53, R170). -/
theorem effect_withOperand {len : Nat} {body : State → Answer}
    (hf : faultOf i s = if s.i.toNat + len > 4096 then
        some (.memOutOfRange s.pc (encode i) (BitVec.ofNat 16 (max s.i.toNat 4096)))
      else none)
    (hbody : ∃ t, body s.advance = .next t ∧ Completed (pcAfter i s) t ∧ Frame (footprint i s) s t) :
    ∃ t, withOperand (encode i) len s body = .next t ∧ Effect i s t := by
  by_cases hfit : s.i.toNat + len ≤ 4096
  · rw [if_neg (Nat.not_lt.mpr hfit)] at hf
    obtain ⟨t, ht, hc, frame⟩ := hbody
    exact ⟨t, (withOperand_fits s _ len body hfit).trans ht, .of_completed hf hc frame⟩
  · rw [if_pos (Nat.not_le.mp hfit)] at hf
    exact ⟨_, (withOperand_outside s _ len body hfit).trans (by rw [lowestOutside_eq]; rfl), .faulted _ hf⟩

/-- At most `I`, a timer or the display written, whichever the footprint holds. -/
theorem effect_update {i' : Word} {dt' st' : Byte} {d' : Display} (hf : faultOf i s = none)
    (hp : pcAfter i s = s.pc + 2#16) (hi : (footprint i s).i = false → i' = s.i)
    (hdt : (footprint i s).dt = false → dt' = s.dt) (hst : (footprint i s).st = false → st' = s.st)
    (hd : (footprint i s).display = false → d' = s.display) :
    ∃ t, complete { s.advance with i := i', dt := dt', st := st', display := d' } = .next t ∧ Effect i s t :=
  ⟨_, rfl, .of_completed hf ⟨hp.symm, rfl⟩ ⟨fun _ _ => rfl, hi, fun _ => ⟨rfl, rfl⟩, hdt, hst, fun _ _ => rfl,
    hd, fun _ => rfl, rfl, rfl⟩⟩

/-- A key skip (R152, R153): the index is checked, then that key decides. -/
theorem effect_finishKeySkip {key : Byte} {skipOn : Bool → Bool}
    (hf : faultOf i s = if key.toNat > 15 then some (.keyIndexOutOfRange s.pc (encode i) key) else none)
    (hp : ∀ k : Fin 16, k.val = key.toNat →
      pcAfter i s = if skipOn (Keypad.isDown s.keypad k) then s.pc + 4#16 else s.pc + 2#16)
    (hw : footprint i s = {}) :
    ∃ t, finishKeySkip (encode i) key skipOn s = .next t ∧ Effect i s t := by
  by_cases hk : key.toNat < 16
  · rw [if_neg (by omega)] at hf
    rw [finishKeySkip_inRange s _ key skipOn ⟨key.toNat, hk⟩ rfl]
    exact effect_finishSkip hf (hp _ rfl) hw
  · rw [if_pos (by omega)] at hf
    exact ⟨_, finishKeySkip_outside s _ key skipOn hk, .faulted _ hf⟩

/-! ## Instructions of no shared shape

First the frame of an update, where the update has one of its own; then the effect. -/

/-- A call or a return writes the stack, besides `pc` (R101, R103). -/
theorem frame_stack (s : State) (p : Word) (sp' : Fin 16) (stack' : Vector Word 16) :
    Frame { stack := true } s { s with pc := p, sp := sp', stack := stack', status := .running } :=
  ⟨fun _ _ => rfl, fun _ => rfl, nofun, fun _ => rfl, fun _ => rfl, fun _ _ => rfl, fun _ => rfl, fun _ => rfl,
    rfl, rfl⟩

/-- Dxyn inside memory writes the display and VF (R145). -/
theorem frame_drawn (x y : RegIndex) (n : Nibble) (s : State) (d : Display) (f : Bool) :
    Frame (footprint (.drw x y n) s) s
      { State.setFlag { s.advance with display := d } f with status := .running } :=
  ⟨fun r hr => State.getV_setV_ne _ regF r _ (by simpa [footprint] using hr), fun _ => rfl, fun _ => ⟨rfl, rfl⟩,
    fun _ => rfl, fun _ => rfl, fun _ _ => rfl, nofun, fun _ => rfl, rfl, rfl⟩

/-- A store at `I` writes the bytes stored and nothing else (R56). -/
theorem frame_stored (s : State) (bs : List Byte) :
    Frame { memFrom := s.i.toNat, memLen := bs.length } s
      { s.advance with mem := Memory.writeBytes s.mem s.i.toNat bs, status := .running } :=
  ⟨fun _ _ => rfl, fun _ => rfl, fun _ => ⟨rfl, rfl⟩, fun _ => rfl, fun _ => rfl,
    fun a ha => Memory.read_writeBytes_outside s.mem s.i.toNat a bs ha, fun _ => rfl, fun _ => rfl, rfl, rfl⟩

/-- Fx65 inside memory writes the registers up to `x` (R136). -/
theorem frame_loaded (x : RegIndex) (s : State) :
    Frame (footprint (.ldm x) s) s { s.advance.loadLowRegisters x with status := .running } := by
  refine ⟨fun r hr => ?_, fun _ => rfl, fun _ => ⟨rfl, rfl⟩, fun _ => rfl, fun _ => rfl, fun _ _ => rfl,
    fun _ => rfl, fun _ => rfl, rfl, rfl⟩
  have hrx : ¬ r ≤ x := by simpa [footprint, writtenRegisters] using hr
  exact (State.getV_loadLowRegisters s.advance x r).trans (if_neg hrx)

/-- Cxkk writes a register and moves the count of draws on (R122). -/
theorem effect_rnd (x : RegIndex) (kk : Byte) (s : State) :
    ∃ t, execRnd x kk s = .next t ∧ Effect (.rnd x kk) s t := by
  obtain ⟨t, ht, hc, -, frame⟩ := finishV_spec s.drawn x (s.rnd &&& kk)
  obtain ⟨hv, hi, hstack, hdt, hst, hmem, hdisplay, -, hkeypad, hschedule⟩ := frame
  exact ⟨t, ht, .of_completed rfl hc
    ⟨hv, hi, hstack, hdt, hst, hmem, hdisplay, nofun, hkeypad, hschedule⟩⟩

/-- Fx0A writes a register and advances, or leaves `pc` and waits (R154). -/
theorem effect_waitk (x : RegIndex) (s : State) :
    ∃ t, execWaitk x s = .next t ∧ Effect (.waitk x) s t := by
  unfold execWaitk
  cases hk : Keypad.anyDown s.keypad with
  | true => exact effect_finishV rfl (if_pos hk) rfl
  | false =>
    exact ⟨_, rfl, .completed _ rfl rfl (if_neg (by simp [hk])).symm (Frame.of_pc_status s _ s.pc _)⟩

/-- 00EE pops, or faults at `sp = 0` (R101). -/
theorem effect_ret (s : State) : ∃ t, execRet s = .next t ∧ Effect .ret s t := by
  unfold execRet
  by_cases hsp : s.sp = 0
  · rw [if_pos hsp]
    exact ⟨_, rfl, .faulted _ (if_pos (by rw [hsp]; rfl))⟩
  · rw [if_neg hsp]
    have hf : faultOf .ret s = none := if_neg (fun h => hsp (Fin.ext h))
    exact ⟨_, rfl, .of_completed hf ⟨rfl, rfl⟩ (frame_stack s _ _ _)⟩

/-- 2nnn pushes, or faults at `sp = 15` (R103). -/
theorem effect_call (nnn : Addr) (s : State) : ∃ t, execCall nnn s = .next t ∧ Effect (.call nnn) s t := by
  unfold execCall
  by_cases hsp : s.sp.val = 15
  · rw [if_pos hsp]
    exact ⟨_, rfl, .faulted _ (if_pos hsp)⟩
  · rw [if_neg hsp]
    exact ⟨_, rfl, .of_completed (if_neg hsp) ⟨rfl, rfl⟩ (frame_stack s _ _ _)⟩

theorem effect_drw (x y : RegIndex) (n : Nibble) (s : State) :
    ∃ t, execDrw x y n s = .next t ∧ Effect (.drw x y n) s t := by
  unfold execDrw
  exact effect_withOperand rfl ⟨_, rfl, ⟨rfl, rfl⟩, frame_drawn x y n s _ _⟩

theorem effect_bcd (x : RegIndex) (s : State) : ∃ t, execBcd x s = .next t ∧ Effect (.bcd x) s t := by
  unfold execBcd
  exact effect_withOperand rfl ⟨_, rfl, ⟨rfl, rfl⟩, frame_stored s (bcdDigits (s.getV x))⟩

theorem effect_stm (x : RegIndex) (s : State) : ∃ t, execStm x s = .next t ∧ Effect (.stm x) s t := by
  have frame := frame_stored s (s.lowRegisters x)
  rw [State.lowRegisters_length] at frame
  unfold execStm
  exact effect_withOperand rfl ⟨_, rfl, ⟨rfl, rfl⟩, frame⟩

theorem effect_ldm (x : RegIndex) (s : State) : ∃ t, execLdm x s = .next t ∧ Effect (.ldm x) s t := by
  unfold execLdm
  exact effect_withOperand rfl ⟨_, rfl, ⟨rfl, rfl⟩, frame_loaded x s⟩

/-- The condition of a key skip in R27's words: the key `vx` names is in the state `down` (R152, R153). -/
theorem exists_key_iff {kp : Keypad} {n : Nat} {k : Fin 16} (hk : k.val = n) (down : Bool) :
    (∃ j : Fin 16, j.val = n ∧ Keypad.isDown kp j = down) ↔ Keypad.isDown kp k = down := by
  constructor
  · rintro ⟨j, hj, hd⟩
    rwa [Fin.ext (hj.trans hk.symm)] at hd
  · exact fun hd => ⟨k, hk, hd⟩

/-- THE EFFECT OF EVERY INSTRUCTION: `exec` answers a next state, and it is one `Effect` allows (R94, R170). -/
theorem exec_effect (i : Instr) (s : State) : ∃ t, exec i s = .next t ∧ Effect i s t := by
  cases i with
  | cls => exact effect_update rfl rfl (fun _ => rfl) (fun _ => rfl) (fun _ => rfl) nofun
  | ret => exact effect_ret s
  | jp nnn => exact effect_finishJump rfl rfl rfl
  | call nnn => exact effect_call nnn s
  | sei x kk => exact effect_finishSkip rfl (if_congr beq_iff_eq.symm rfl rfl) rfl
  | snei x kk => exact effect_finishSkip rfl (if_congr bne_iff_ne.symm rfl rfl) rfl
  | se x y => exact effect_finishSkip rfl (if_congr beq_iff_eq.symm rfl rfl) rfl
  | ldi x kk => exact effect_finishV rfl rfl rfl
  | addi x kk => exact effect_finishV rfl rfl rfl
  | mov x y => exact effect_finishV rfl rfl rfl
  | or x y => exact effect_finishV rfl rfl rfl
  | and x y => exact effect_finishV rfl rfl rfl
  | xor x y => exact effect_finishV rfl rfl rfl
  | add x y => exact effect_finishResultThenFlag rfl rfl rfl
  | sub x y => exact effect_finishResultThenFlag rfl rfl rfl
  | shr x y => exact effect_finishFlagThenResult rfl rfl rfl
  | subn x y => exact effect_finishResultThenFlag rfl rfl rfl
  | shl x y => exact effect_finishFlagThenResult rfl rfl rfl
  | sne x y => exact effect_finishSkip rfl (if_congr bne_iff_ne.symm rfl rfl) rfl
  | ldix nnn => exact effect_update rfl rfl nofun (fun _ => rfl) (fun _ => rfl) (fun _ => rfl)
  | jpv0 nnn => exact effect_finishJump rfl rfl rfl
  | rnd x kk => exact effect_rnd x kk s
  | drw x y n => exact effect_drw x y n s
  | skp x =>
    exact effect_finishKeySkip (skipOn := fun down => down) rfl
      (fun k hk => if_congr (exists_key_iff hk true) rfl rfl) rfl
  | sknp x =>
    refine effect_finishKeySkip rfl (fun k hk => if_congr ?_ rfl rfl) rfl
    rw [exists_key_iff hk false, Bool.not_eq_true']
  | getdt x => exact effect_finishV rfl rfl rfl
  | waitk x => exact effect_waitk x s
  | setdt x => exact effect_update rfl rfl (fun _ => rfl) nofun (fun _ => rfl) (fun _ => rfl)
  | setst x => exact effect_update rfl rfl (fun _ => rfl) (fun _ => rfl) nofun (fun _ => rfl)
  | addix x => exact effect_update rfl rfl nofun (fun _ => rfl) (fun _ => rfl) (fun _ => rfl)
  | font x => exact effect_update rfl rfl nofun (fun _ => rfl) (fun _ => rfl) (fun _ => rfl)
  | bcd x => exact effect_bcd x s
  | stm x => exact effect_stm x s
  | ldm x => exact effect_ldm x s
  | unassigned w => exact ⟨_, rfl, .of_completed rfl ⟨rfl, rfl⟩ (Frame.of_pc_status s _ _ _)⟩

/-- The inversion of `exec`: whatever it answers is an effect the rules allow. -/
theorem effect_of_exec (h : exec i s = .next t) : Effect i s t := by
  obtain ⟨u, hu, effect⟩ := exec_effect i s
  cases hu.symm.trans h
  exact effect

end Sys2Proof.Machine
end

section
/-! SUPPORT. The stack and `pc`: what an instruction does to the slots (R30 to R32), the bound on where it goes, and that every
step keeps the bounds of R29. -/

namespace Sys2Proof.Machine

variable {i : Instr} {s t : State}

/-! ## The slots -/

/-- The slots stay, or 2nnn pushes its return address with a slot free (R30, R103). -/
theorem exec_stack_cases (h : exec i s = .next t) :
    t.stack = s.stack ∨ ∃ nnn, i = .call nnn ∧ s.sp.val < 15 ∧ t.stack = (s.push (s.pc + 2#16)).stack := by
  cases i with
  | call nnn =>
    change execCall nnn s = .next t at h
    unfold execCall at h
    by_cases hsp : s.sp.val = 15
    · rw [if_pos hsp] at h; cases h; exact .inl rfl
    · rw [if_neg hsp] at h; cases h
      exact .inr ⟨nnn, rfl, by have := s.sp.isLt; dsimp only at this; omega, rfl⟩
  | ret =>
    change execRet s = .next t at h
    unfold execRet at h
    split at h <;> cases h <;> exact .inl rfl
  | _ => exact .inl ((effect_of_exec h).frame.stack rfl).2

/-- A push with a slot free goes above slot 0, which so keeps its value (R32). -/
theorem slot_zero_push (ret : Word) (hsp : s.sp.val < 15) :
    (s.push ret).stack[(0 : Fin 16)] = s.stack[(0 : Fin 16)] := by
  refine State.slot_push_ne s ret 0 (fun h => ?_)
  have hval : 0 = (s.sp.val + 1) % 16 := congrArg Fin.val h
  omega

/-- Every slot after a push is the pushed address or as before (R103). -/
theorem slot_push (ret : Word) (k : Fin 16) :
    (s.push ret).stack[k] = ret ∨ (s.push ret).stack[k] = s.stack[k] := by
  by_cases hk : k = s.sp + 1
  · subst hk; exact .inl (State.top_push s ret)
  · exact .inr (State.slot_push_ne s ret k hk)

/-! ## The bounds on `pc` -/

theorem addrToWord_le (nnn : Addr) : (addrToWord nnn).toNat ≤ 4095 := by
  rw [addrToWord_toNat]; have := nnn.isLt; omega

/-- R108: the sum of an address and a byte is at most 0x10FE and does not wrap. -/
theorem addrToWord_add_byteToWord_le (nnn : Addr) (b : Byte) :
    (addrToWord nnn + byteToWord b).toNat ≤ 0x10FE := by
  have := addrToWord_le nnn
  have := b.isLt
  rw [BitVec.toNat_add, byteToWord_toNat]
  omega

/-- R29: an instruction that was fetched at `a <= 4094` leaves `pc` at most 0x10FE. -/
theorem pcAfter_le (i : Instr) (hfetch : s.pc.toNat + 1 < 4096)
    (hslots : ∀ k : Fin 16, (s.stack[k]).toNat ≤ 4096) : (pcAfter i s).toNat ≤ 0x10FE := by
  have next : (s.pc + 2#16).toNat ≤ 0x10FE := by bv_omega
  have skip : ∀ (c : Prop) [Decidable c], (if c then s.pc + 4#16 else s.pc + 2#16).toNat ≤ 0x10FE := by
    intro c _
    split
    · bv_omega
    · exact next
  cases i with
  | sei x kk => exact skip _
  | snei x kk => exact skip _
  | se x y => exact skip _
  | sne x y => exact skip _
  | skp x => exact skip _
  | sknp x => exact skip _
  | jp nnn => exact (addrToWord_le nnn).trans (by decide)
  | call nnn => exact (addrToWord_le nnn).trans (by decide)
  | jpv0 nnn => exact addrToWord_add_byteToWord_le nnn _
  | ret => exact (hslots s.sp).trans (by decide)
  | waitk x =>
    simp only [pcAfter]
    split
    · exact next
    · omega
  | _ => exact next

/-! ## The invariant -/

/-- The bounds speak of `pc` and the slots alone. -/
theorem PcBounded.congr (h : PcBounded s) (hpc : t.pc = s.pc) (hstack : t.stack = s.stack) : PcBounded t := by
  unfold PcBounded
  rwa [hpc, hstack]

theorem pcBounded_resetBlock (s : State) : PcBounded s.resetBlock := by
  refine ⟨?_, fun k => ?_, rfl⟩
  · rw [State.resetBlock_pc]; decide
  · simp [State.reset]

/-- An instruction fetched in memory keeps the bounds (R29, R32). -/
theorem exec_keeps_pcBounded (hs : PcBounded s) (hfetch : s.pc.toNat + 1 < 4096) (h : exec i s = .next t) :
    PcBounded t := by
  obtain ⟨-, hslots, hzero⟩ := hs
  have next : (s.pc + 2#16).toNat ≤ 4096 := by bv_omega
  refine ⟨?_, ?_⟩
  · cases effect_of_exec h with
    | faulted r _ => exact next.trans (by decide)
    | completed _ _ _ hpc _ => exact hpc ▸ pcAfter_le i hfetch hslots
  · obtain hstack | ⟨nnn, -, hsp, hstack⟩ := exec_stack_cases h
    · rw [hstack]; exact ⟨hslots, hzero⟩
    · rw [hstack]
      refine ⟨fun k => ?_, (slot_zero_push _ hsp).trans hzero⟩
      obtain hk | hk := slot_push (s := s) (s.pc + 2#16) k
      · rw [hk]; exact next
      · rw [hk]; exact hslots k

/-- A cycle keeps the bounds: it fetches in memory, or `pc` and the slots stay (R90). -/
theorem cycle_keeps_pcBounded (hs : PcBounded s) (h : cycle s = .next t) : PcBounded t := by
  obtain ⟨-, rfl⟩ | ⟨-, -, rfl⟩ | ⟨-, hfetch, w, -, hw⟩ := cycle_cases s t h
  · exact hs
  · exact hs.congr rfl rfl
  · exact exec_keeps_pcBounded hs hfetch hw

/-- Every step keeps the bounds, whatever the host does (R8, R29). -/
theorem step_keeps_pcBounded (hs : PcBounded s) (h : step s = .next t) : PcBounded t := by
  obtain ⟨-, hc⟩ | rfl | ⟨kp, rfl⟩ | ⟨bytes, -, rfl⟩ | rfl := step_cases s t h
  · have hpop : PcBounded s.popSchedule := hs.congr rfl rfl
    exact cycle_keeps_pcBounded hpop hc
  · exact hs.congr rfl rfl
  · exact hs.congr rfl rfl
  · exact hs.congr rfl rfl
  · exact pcBounded_resetBlock _

end Sys2Proof.Machine
end

section
/-! SUPPORT. One state with two values of ST, or two values of the status: no instruction tells them apart (R34, R36). -/

namespace Sys2Proof.Machine

/-! ## The sound timer -/

/-- The state with another sound timer. -/
def State.withSt (s : State) (b : Byte) : State := { s with st := b }

/-- An answer with another sound timer in its next state. -/
def withStAfter (b : Byte) : Answer → Answer
  | .next t => .next (t.withSt b)
  | .fault r => .fault r
  | .refused r => .refused r

variable (s : State) (b : Byte)

/-- A choice made without ST carries ST along if both of its sides do. -/
theorem ite_withSt {c : Prop} [Decidable c] {p p' q q' : Answer} (hp : p' = withStAfter b p)
    (hq : q' = withStAfter b q) : (if c then p' else q') = withStAfter b (if c then p else q) := by
  split <;> assumption

theorem finishSkip_withSt (c : Bool) : finishSkip c (s.withSt b) = withStAfter b (finishSkip c s) := by
  cases c <;> rfl

theorem finishKeySkip_withSt (instr : Word) (key : Byte) (skipOn : Bool → Bool) :
    finishKeySkip instr key skipOn (s.withSt b) = withStAfter b (finishKeySkip instr key skipOn s) := by
  unfold finishKeySkip
  split
  · exact finishSkip_withSt s b _
  · rfl

/-- R34: but for Fx18, another ST before an instruction is that ST after it, and no other difference. -/
theorem exec_withSt (i : Instr) (hi : ∀ x, i ≠ .setst x) :
    exec i (s.withSt b) = withStAfter b (exec i s) := by
  cases i with
  | setst x => exact absurd rfl (hi x)
  | sei x kk => exact finishSkip_withSt s b _
  | snei x kk => exact finishSkip_withSt s b _
  | se x y => exact finishSkip_withSt s b _
  | sne x y => exact finishSkip_withSt s b _
  | skp x => exact finishKeySkip_withSt s b (encode (.skp x)) (s.getV x) (fun down => down)
  | sknp x => exact finishKeySkip_withSt s b (encode (.sknp x)) (s.getV x) (fun down => !down)
  | drw x y n => exact ite_withSt b rfl rfl
  | bcd x => exact ite_withSt b rfl rfl
  | stm x => exact ite_withSt b rfl rfl
  | ldm x => exact ite_withSt b rfl rfl
  | ret => exact ite_withSt b rfl rfl
  | call nnn => exact ite_withSt b rfl rfl
  | waitk x => exact ite_withSt b rfl rfl
  | _ => rfl

/-! ## The status -/

theorem finishKeySkip_status (instr : Word) (key : Byte) (skipOn : Bool → Bool) (r : Status) :
    finishKeySkip instr key skipOn { s with status := r } = finishKeySkip instr key skipOn s := by
  unfold finishKeySkip
  split
  · exact finishSkip_status s _ r
  · rfl

/-- R36: an instruction reads no status; every other shape writes it over without a look. -/
theorem exec_status (i : Instr) (r : Status) : exec i { s with status := r } = exec i s := by
  cases i with
  | sei x kk => exact finishSkip_status s _ r
  | snei x kk => exact finishSkip_status s _ r
  | se x y => exact finishSkip_status s _ r
  | sne x y => exact finishSkip_status s _ r
  | skp x => exact finishKeySkip_status s _ _ (fun down => down) r
  | sknp x => exact finishKeySkip_status s _ _ _ r
  | _ => rfl

theorem fetch_status (r : Status) : State.fetch { s with status := r } = s.fetch := rfl

/-- A waiting CPU cycles as a running one: the same fetch, then an instruction that reads no status (R36, D12). -/
theorem cycle_awaitingKey : cycle { s with status := .awaitingKey } = cycle { s with status := .running } := by
  rw [cycle_running { s with status := .awaitingKey } rfl, cycle_running { s with status := .running } rfl,
    fetch_status s .awaitingKey, fetch_status s .running]
  cases s.fetch with
  | none => rfl
  | some w => exact (exec_status s _ _).trans (exec_status s _ _).symm

end Sys2Proof.Machine
end

section
/-! SUPPORT. The table of R39, clause by clause, for the state `reset()` leaves. -/

namespace Sys2Proof.Machine

/-- At power-on the state is one that `reset()` leaves (R201). -/
theorem reset_eq_resetBlock : State.reset = State.reset.resetBlock := rfl

variable (s : State)

theorem getV_resetBlock (r : RegIndex) : s.resetBlock.getV r = 0x00#8 := by
  simp [State.getV, State.reset]

theorem slot_resetBlock (k : Fin 16) : s.resetBlock.stack[k] = 0x0000#16 := by
  simp [State.reset]

/-- FONT stands glyph by glyph from 0x000 on (R35). -/
theorem resetByte_glyph (d j : Nat) (hj : j < 5) : resetByte (5 * d + j) = fontByte d j := by
  have hd : (5 * d + j) / 5 = d := by omega
  have hm : (5 * d + j) % 5 = j := by omega
  simp [resetByte, fontBase, hd, hm]

/-- Above the font every byte is zero (R39). -/
theorem resetByte_above (a : Nat) (ha : 0x050 ≤ a) : resetByte a = 0x00#8 := by
  have hlen : font.length ≤ a / 5 := by rw [show font.length = 16 from rfl]; omega
  simp [resetByte, fontBase, fontByte, hlen]

theorem cell_resetBlock (py : Fin 32) (px : Fin 64) : Display.cell s.resetBlock.display py px = false :=
  Display.cell_clear py px

theorem isDown_resetBlock (k : Fin 16) : Keypad.isDown s.resetBlock.keypad k = false := by
  simp [Keypad.isDown, State.reset]

end Sys2Proof.Machine
end

section
/-! PROOFS. The statements about the state and its writers (10_state.md). -/

namespace Sys2Proof.Machine

/-- Settles O23: by the invariant `PcBounded`, which is inductive as it stands, since an instruction is fetched at 4094 at most. -/
theorem stepKeepsPcBounded : Obligations.StepKeepsPcBounded := fun _ _ => step_keeps_pcBounded

/-- Settles O11: an effect that is not a fault leaves `pc` where R27 says. -/
theorem pcAfterEveryInstruction : Obligations.PcAfterEveryInstruction := by
  intro i s t h hrun
  cases effect_of_exec h with
  | faulted r _ => cases hrun
  | completed _ _ _ hpc _ => exact hpc

/-- Settles O12: the registers of the footprint are those R25 lists. -/
theorem registerWritersAsListed : Obligations.RegisterWritersAsListed := fun i s _ r h hr =>
  (effect_of_exec h).frame.v r (by rwa [footprint_v])

/-- Settles O15: the slots by the two cases of `exec_stack_cases`, `sp` by the footprint. -/
theorem stackWriters : Obligations.StackWriters := by
  intro i s t h
  refine ⟨fun hcall => ?_, fun hcall hret => ?_, ?_⟩
  · obtain hstack | ⟨nnn, hi, -⟩ := exec_stack_cases h
    · exact hstack
    · exact absurd hi (hcall nnn)
  · exact ((effect_of_exec h).frame.stack (footprint_stack i s hcall hret)).1
  · obtain hstack | ⟨nnn, -, hsp, hstack⟩ := exec_stack_cases h
    · rw [hstack]
    · rw [hstack]; exact slot_zero_push _ hsp

/-- Settles O16: by the footprint. -/
theorem indexAndDisplayWriters : Obligations.IndexAndDisplayWriters := by
  intro i s t h
  have frame := (effect_of_exec h).frame
  exact ⟨fun hldix haddix hfont => frame.i (footprint_i i s hldix haddix hfont),
    fun hcls hdrw => frame.display (footprint_display i s hcls hdrw)⟩

/-- Settles O19: Fx18 overwrites ST; every other instruction carries it along. -/
theorem soundTimerIsNeverRead : Obligations.SoundTimerIsNeverRead := by
  intro i s t b h
  have carried (hi : ∀ x, i ≠ .setst x) : exec i (s.withSt b) = .next (t.withSt b) := by
    rw [exec_withSt s b i hi, h, withStAfter]
  cases i with
  | setst x => exact h
  | _ => exact carried nofun

/-- Settles O20: no shape of an instruction reads the status, and the fetch does not either. -/
theorem statusIsNeverRead : Obligations.StatusIsNeverRead :=
  ⟨fun i s r => exec_status s i r, cycle_awaitingKey⟩

/-- Settles O21: memory lists nothing, and the power-on state is one `reset()` leaves. -/
theorem resetMeetsInvariants : Obligations.ResetMeetsInvariants :=
  ⟨State.reset_mem_wf, pcBounded_resetBlock State.reset⟩

/-- Settles O24: power-on and reset are one case, and each clause of the table has its lemma. -/
theorem resetLeavesTheTable : Obligations.ResetLeavesTheTable := by
  refine ⟨fun s hm => by rw [step, hm, perform], fun t ht => ?_⟩
  obtain ⟨s, rfl⟩ : ∃ s : State, t = s.resetBlock := by
    obtain rfl | hs := ht
    · exact ⟨State.reset, reset_eq_resetBlock⟩
    · exact hs
  exact ⟨⟨getV_resetBlock s, rfl, rfl, slot_resetBlock s, rfl, rfl, rfl⟩, fun d j _ hj => resetByte_glyph d j hj,
    resetByte_above, cell_resetBlock s, isDown_resetBlock s, rfl⟩

end Sys2Proof.Machine
end

section
/-! SUPPORT. Memory: what a store at `I` leaves there (R56), that no other instruction touches the list of cells, and that every
step keeps its canonical form. -/

namespace Sys2Proof.Machine

variable {i : Instr} {s t : State}

/-! ## Instructions that store nothing -/

/-- A next state an answer gives, if it gives one, has the memory `m`: the same list of cells, not only the same bytes. -/
def LeavesMem (m : Memory) (p : Answer) : Prop := ∀ t, p = .next t → t.mem = m

theorem LeavesMem.next (t : State) : LeavesMem t.mem (.next t) := fun _ h => by cases h; rfl

theorem LeavesMem.ite {m : Memory} {c : Prop} [Decidable c] {p q : Answer} (hp : LeavesMem m p) (hq : LeavesMem m q) :
    LeavesMem m (if c then p else q) := by
  split <;> assumption

theorem finishSkip_leavesMem (s : State) (c : Bool) : LeavesMem s.mem (finishSkip c s) := by
  cases c <;> exact .next _

theorem finishKeySkip_leavesMem (s : State) (instr : Word) (key : Byte) (skipOn : Bool → Bool) :
    LeavesMem s.mem (finishKeySkip instr key skipOn s) := by
  unfold finishKeySkip
  split
  · exact finishSkip_leavesMem s _
  · exact .next _

/-- R56: but for Fx33 and Fx55 an instruction leaves memory as it is. -/
theorem exec_leavesMem (s : State) (hi : storedLength i = 0) : LeavesMem s.mem (exec i s) := by
  cases i with
  | bcd x => cases hi
  | stm x => cases hi
  | sei x kk => exact finishSkip_leavesMem s _
  | snei x kk => exact finishSkip_leavesMem s _
  | se x y => exact finishSkip_leavesMem s _
  | sne x y => exact finishSkip_leavesMem s _
  | skp x => exact finishKeySkip_leavesMem s _ _ (fun down => down)
  | sknp x => exact finishKeySkip_leavesMem s _ _ _
  | drw x y n => exact .ite (.next _) (.next _)
  | ldm x => exact .ite (.next _) (.next _)
  | ret => exact .ite (.next _) (.next _)
  | call nnn => exact .ite (.next _) (.next _)
  | waitk x => exact .ite (.next _) (.next _)
  | _ => exact .next _

/-! ## Stores -/

/-- The bytes `bs` stored at `I`, all else but the advance as before. -/
def State.stored (s : State) (bs : List Byte) : State :=
  { s.advance with mem := Memory.writeBytes s.mem s.i.toNat bs, status := .running }

@[simp] theorem State.stored_pc (s : State) (bs : List Byte) : (s.stored bs).pc = s.pc + 2#16 := rfl

/-- Fx55 inside memory stores the registers up to `x` (R135). -/
theorem exec_stm_fits (x : RegIndex) (h : s.i.toNat + blockLength x ≤ 4096) :
    exec (.stm x) s = .next (s.stored (s.lowRegisters x)) := by
  change execStm x s = _
  unfold execStm
  rw [withOperand_fits s _ _ _ h]
  rfl

/-- Fx55 leaves `V[j]` at `I + j` for every `j` up to `x` (R135). -/
theorem read_stored_lowRegisters (x j : RegIndex) (hj : j ≤ x) :
    Memory.read (s.stored (s.lowRegisters x)).mem (s.i.toNat + j.val) = s.getV j := by
  have hjx : j.val < x.val + 1 := Nat.lt_succ_of_le hj
  refine (Memory.read_writeBytes_inside _ _ _ _ (by rwa [State.lowRegisters_length, blockLength])).trans ?_
  rw [List.getElem_eq_iff, State.lowRegisters_getElem?, dif_pos hjx]

/-- A store of `bs` at `I`: it was made inside memory, or the fault left memory as it was (R53, R54). -/
theorem withOperand_stores {instr : Word} {len : Nat} {body : State → Answer} {bs : List Byte}
    (h : withOperand instr len s body = .next t) (hlen : bs.length = len) (hbody : body s.advance = .next (s.stored bs)) :
    t.mem = s.mem ∨ ∃ bs : List Byte, bs.length = len ∧ s.i.toNat + bs.length ≤ 4096 ∧
      t.mem = Memory.writeBytes s.mem s.i.toNat bs := by
  by_cases hfit : s.i.toNat + len ≤ 4096
  · rw [withOperand_fits s _ _ _ hfit, hbody] at h
    cases h
    exact .inr ⟨bs, hlen, by rwa [hlen], rfl⟩
  · rw [withOperand_outside s _ _ _ hfit, raise_next] at h
    exact .inl (h ▸ rfl)

/-- Everything an instruction can do to memory: nothing, or one block stored at `I`, of the listed length and inside memory
(R53, R56). -/
theorem exec_mem_cases (h : exec i s = .next t) :
    t.mem = s.mem ∨ ∃ bs : List Byte, bs.length = storedLength i ∧ s.i.toNat + bs.length ≤ 4096 ∧
      t.mem = Memory.writeBytes s.mem s.i.toNat bs := by
  cases i with
  | bcd x =>
    change execBcd x s = .next t at h
    unfold execBcd at h
    exact withOperand_stores (bs := bcdDigits (s.getV x)) h rfl rfl
  | stm x =>
    change execStm x s = .next t at h
    unfold execStm at h
    exact withOperand_stores h (State.lowRegisters_length s x) rfl
  | _ => exact .inl (exec_leavesMem s rfl t h)

/-! ## The canonical form -/

/-- The canonical form speaks of memory alone. -/
theorem MemCanonical.congr (hs : MemCanonical s) (hmem : t.mem = s.mem) : MemCanonical t := by
  unfold MemCanonical
  rwa [hmem]

/-- An instruction keeps the form, since a store is inside memory (R53). -/
theorem exec_keeps_memCanonical (hs : MemCanonical s) (h : exec i s = .next t) : MemCanonical t := by
  obtain hmem | ⟨bs, -, hfit, hmem⟩ := exec_mem_cases h
  · exact hs.congr hmem
  · unfold MemCanonical
    rw [hmem]
    exact Memory.writeBytes_wf bs _ _ hs hfit

/-- A cycle keeps the form: memory stays, or an instruction runs (R90). -/
theorem cycle_keeps_memCanonical (hs : MemCanonical s) (h : cycle s = .next t) : MemCanonical t := by
  obtain ⟨-, rfl⟩ | ⟨-, -, rfl⟩ | ⟨-, -, w, -, hw⟩ := cycle_cases s t h
  · exact hs
  · exact hs.congr rfl
  · exact exec_keeps_memCanonical hs hw

/-- Every step keeps the form: of the host's operations only a load that fits writes memory, and `reset()` empties the list
(R8, R203). -/
theorem step_keeps_memCanonical (hs : MemCanonical s) (h : step s = .next t) : MemCanonical t := by
  obtain ⟨-, hc⟩ | rfl | ⟨kp, rfl⟩ | ⟨bytes, hlen, rfl⟩ | rfl := step_cases s t h
  · have hpop : MemCanonical s.popSchedule := hs.congr rfl
    exact cycle_keeps_memCanonical hpop hc
  · exact hs.congr rfl
  · exact hs.congr rfl
  · exact Memory.writeBytes_wf bytes s.mem 0x200 hs (by dsimp only; omega)
  · exact State.reset_mem_wf

end Sys2Proof.Machine
end

section
/-! PROOFS. The statements about memory (20_memory.md). -/

namespace Sys2Proof.Machine

/-- Settles O22: the form is inductive as it stands, since every store and every load lies inside memory. -/
theorem stepKeepsMemoryCanonical : Obligations.StepKeepsMemoryCanonical := fun _ _ => step_keeps_memCanonical

/-- Settles O13: by the two cases of `exec_mem_cases`. -/
theorem memoryWritersAsListed : Obligations.MemoryWritersAsListed := by
  intro i s t a h ha
  obtain hmem | ⟨bs, hlen, -, hmem⟩ := exec_mem_cases h
  · rw [hmem]
  · rw [hmem]
    exact Memory.read_writeBytes_outside s.mem s.i.toNat a bs (by rwa [hlen])

/-- Settles O47: after the advance `pc` is `I`, where `V[0]` and `V[1]` were stored. -/
theorem storeIsFetchedNext : Obligations.StoreIsFetchedNext := by
  intro x s hx hi hfit
  have hpc : (s.stored (s.lowRegisters x)).pc.toNat = s.i.toNat := by
    rw [State.stored_pc]
    bv_omega
  have hhigh : Memory.read (s.stored (s.lowRegisters x)).mem s.i.toNat = s.getV 0 :=
    read_stored_lowRegisters x 0 (Fin.zero_le x)
  have hlow : Memory.read (s.stored (s.lowRegisters x)).mem (s.i.toNat + 1) = s.getV 1 :=
    read_stored_lowRegisters x 1 hx
  refine ⟨_, _, exec_stm_fits x (by rw [blockLength]; omega), fetch_inRange _ (by omega), ?_⟩
  rw [wordOfBytes_toNat, hpc, hhigh, hlow]

end Sys2Proof.Machine
end

section
/-! SUPPORT. Decoder, encoder and opcode table. Each word decodes to a well-formed instruction that encodes to the word, so
the word satisfies that instruction's row of R76; no word satisfies two rows, and a word that R77 enumerates satisfies none. So
the decoder is the dispatch of R74. -/

namespace Sys2Proof

variable {w : Word}

/-! ## R77 in numbers -/

/-- The enumeration of R77, group by group, as tests of the word's number. -/
theorem isUnassignedWord_iff_toNat (w : Word) : isUnassignedWord w = true ↔
    (w.toNat / 4096 = 0x0 ∧ w.toNat ≠ 0x00E0 ∧ w.toNat ≠ 0x00EE) ∨
    (w.toNat / 4096 = 0x5 ∧ w.toNat % 16 ≠ 0x0) ∨
    (w.toNat / 4096 = 0x8 ∧ w.toNat % 16 ∈ [0x8, 0x9, 0xA, 0xB, 0xC, 0xD, 0xF]) ∨
    (w.toNat / 4096 = 0x9 ∧ w.toNat % 16 ≠ 0x0) ∨
    (w.toNat / 4096 = 0xE ∧ w.toNat % 256 ≠ 0x9E ∧ w.toNat % 256 ≠ 0xA1) ∨
    (w.toNat / 4096 = 0xF ∧ w.toNat % 256 ∉ [0x07, 0x0A, 0x15, 0x18, 0x1E, 0x29, 0x33, 0x55, 0x65]) := by
  have top (k : Nat) : w.toNat / 4096 = k ↔ w.toNat / 4096 * 4096 = k * 4096 := by omega
  have word (m : Word) : w = m ↔ w.toNat = m.toNat := BitVec.toNat_inj.symm
  simp [isUnassignedWord, maskF000_eq_iff, mask000F_eq_iff, mask00FF_eq_iff, word, or_assoc, and_assoc,
    top 0x5, top 0x8, top 0x9, top 0xE, top 0xF]

/-! ## Decoding, then encoding -/

/-- What the decoder owes a word (R71, R74, R77): a well-formed instruction, and no bit of the word dropped. -/
def Faithful (w : Word) (i : Instr) : Prop := encode i = w ∧ i.wellFormed = true

/-! A word is in a format (R73) by the fixed fields it has. -/

theorem formA_of_op1 {op : Nibble} (hop : fieldOp1 w = op) : formA op (fieldNNN w) = w := by
  subst hop; exact formA_fields w

theorem formI_of_op1 {op : Nibble} (hop : fieldOp1 w = op) : formI op (fieldX w) (fieldKK w) = w := by
  subst hop; exact formI_fields w

theorem formD_of_op1 {op : Nibble} (hop : fieldOp1 w = op) : formR op (fieldX w) (fieldY w) (fieldN w) = w := by
  subst hop; exact formR_fields w

theorem formX_of_op1_kk {op : Nibble} {kk : Byte} (hop : fieldOp1 w = op) (hkk : fieldKK w = kk) :
    formI op (fieldX w) kk = w := by
  subst hkk; exact formI_of_op1 hop

theorem formR_of_op1_n {op n : Nibble} (hop : fieldOp1 w = op) (hn : fieldN w = n) :
    formR op (fieldX w) (fieldY w) n = w := by
  subst hn; exact formD_of_op1 hop

/-! The decoders of R75's divided major opcodes: an assigned arm by its format, the last arm by its group of R77. -/

theorem decode0_faithful (hop : fieldOp1 w = 0x0#4) : Faithful w (decode0 w) := by
  unfold decode0
  split_ifs with hcls hret
  · exact ⟨hcls.symm, rfl⟩
  · exact ⟨hret.symm, rfl⟩
  · rw [fieldOp1_eq_iff] at hop
    rw [← BitVec.toNat_inj] at hcls hret
    exact ⟨rfl, (isUnassignedWord_iff_toNat w).2 (.inl ⟨hop, hcls, hret⟩)⟩

theorem decodeWhenZero_faithful {i : Instr} (hop : fieldOp1 w = 0x5#4 ∨ fieldOp1 w = 0x9#4)
    (hi : fieldN w = 0x0#4 → Faithful w i) : Faithful w (decodeWhenZero i w) := by
  unfold decodeWhenZero
  split_ifs with hn
  · exact hi hn
  · rw [fieldN_eq_iff] at hn
    simp only [fieldOp1_eq_iff] at hop
    refine ⟨rfl, (isUnassignedWord_iff_toNat w).2 ?_⟩
    obtain h5 | h9 := hop
    · exact .inr (.inl ⟨h5, hn⟩)
    · exact .inr (.inr (.inr (.inl ⟨h9, hn⟩)))

theorem decode8_faithful (hop : fieldOp1 w = 0x8#4) : Faithful w (decode8 w) := by
  unfold decode8
  split
  case h_10 =>
    simp only [fieldOp1_eq_iff, fieldN_eq_iff] at *
    refine ⟨rfl, (isUnassignedWord_iff_toNat w).2 (.inr (.inr (.inl ⟨hop, ?_⟩)))⟩
    simp at *
    omega
  all_goals exact ⟨formR_of_op1_n hop ‹_›, rfl⟩

theorem decodeE_faithful (hop : fieldOp1 w = 0xE#4) : Faithful w (decodeE w) := by
  unfold decodeE
  split
  case h_3 h9E hA1 =>
    simp only [fieldOp1_eq_iff, fieldKK_eq_iff] at *
    exact ⟨rfl, (isUnassignedWord_iff_toNat w).2 (.inr (.inr (.inr (.inr (.inl ⟨hop, h9E, hA1⟩)))))⟩
  all_goals exact ⟨formX_of_op1_kk hop ‹_›, rfl⟩

theorem decodeF_faithful (hop : fieldOp1 w = 0xF#4) : Faithful w (decodeF w) := by
  unfold decodeF
  split
  case h_10 =>
    simp only [fieldOp1_eq_iff, fieldKK_eq_iff] at *
    refine ⟨rfl, (isUnassignedWord_iff_toNat w).2 (.inr (.inr (.inr (.inr (.inr ⟨hop, ?_⟩)))))⟩
    simp_all
  all_goals exact ⟨formX_of_op1_kk hop ‹_›, rfl⟩

/-- By the major opcode (R75). -/
theorem decodeWord_faithful (w : Word) : Faithful w (decodeWord w) := by
  unfold decodeWord
  split
  next hop => exact decode0_faithful hop
  next hop => exact ⟨formA_of_op1 hop, rfl⟩
  next hop => exact ⟨formA_of_op1 hop, rfl⟩
  next hop => exact ⟨formI_of_op1 hop, rfl⟩
  next hop => exact ⟨formI_of_op1 hop, rfl⟩
  next hop => exact decodeWhenZero_faithful (.inl hop) fun hn => ⟨formR_of_op1_n hop hn, rfl⟩
  next hop => exact ⟨formI_of_op1 hop, rfl⟩
  next hop => exact ⟨formI_of_op1 hop, rfl⟩
  next hop => exact decode8_faithful hop
  next hop => exact decodeWhenZero_faithful (.inr hop) fun hn => ⟨formR_of_op1_n hop hn, rfl⟩
  next hop => exact ⟨formA_of_op1 hop, rfl⟩
  next hop => exact ⟨formA_of_op1 hop, rfl⟩
  next hop => exact ⟨formI_of_op1 hop, rfl⟩
  next hop => exact ⟨formD_of_op1 hop, rfl⟩
  next hop => exact decodeE_faithful hop
  next hop => exact decodeF_faithful hop
  next =>
    have := w.isLt
    simp only [fieldOp1_eq_iff] at *
    simp at *
    omega

@[simp] theorem encode_decodeWord (w : Word) : encode (decodeWord w) = w := (decodeWord_faithful w).1

theorem wellFormed_decodeWord (w : Word) : (decodeWord w).wellFormed = true := (decodeWord_faithful w).2

/-! ## The rows of R76 -/

theorem rowMatches_iff {row : Word × Word} : rowMatches w row = true ↔ w &&& row.1 = row.2 := beq_iff_eq

open Laws.EncodedRow in
/-- The family EncodedRow as one law. -/
theorem encodedRow : ∀ i : Instr, Statement i
  | .cls => cls | .ret => ret | .jp _ => jp _ | .call _ => call _ | .sei _ _ => sei _ _ | .snei _ _ => snei _ _
  | .se _ _ => se _ _ | .ldi _ _ => ldi _ _ | .addi _ _ => addi _ _ | .mov _ _ => mov _ _ | .or _ _ => or _ _
  | .and _ _ => and _ _ | .xor _ _ => xor _ _ | .add _ _ => add _ _ | .sub _ _ => sub _ _ | .shr _ _ => shr _ _
  | .subn _ _ => subn _ _ | .shl _ _ => shl _ _ | .sne _ _ => sne _ _ | .ldix _ => ldix _ | .jpv0 _ => jpv0 _
  | .rnd _ _ => rnd _ _ | .drw _ _ _ => drw _ _ _ | .skp _ => skp _ | .sknp _ => sknp _ | .getdt _ => getdt _
  | .waitk _ => waitk _ | .setdt _ => setdt _ | .setst _ => setst _ | .addix _ => addix _ | .font _ => font _
  | .bcd _ => bcd _ | .stm _ => stm _ | .ldm _ => ldm _ | .unassigned _ => unassigned _

/-- A word satisfies the row of the instruction it decodes to. -/
theorem rowMatches_rowOf_decodeWord (w : Word) : rowMatches w (rowOf (decodeWord w)) = true := by
  have h := encodedRow (decodeWord w) (wellFormed_decodeWord w)
  rwa [encode_decodeWord, ← rowMatches_iff] at h

theorem rowOf_mem_opcodeRows (i : Instr) (hi : ∀ w, i ≠ .unassigned w) : rowOf i ∈ opcodeRows := by
  cases i with
  | unassigned w => exact absurd rfl (hi w)
  | _ => simp [rowOf, opcodeRows]

/-- The matches differ in a bit that both masks fix. -/
abbrev Separated (row row' : Word × Word) : Prop := row.2 &&& row'.1 ≠ row'.2 &&& row.1

theorem opcodeRows_separated : opcodeRows.Pairwise Separated := by decide

/-- R74: no word satisfies two rows, since it would have the bits of both under both masks. -/
theorem rowMatches_unique {row row' : Word × Word} (hrow : row ∈ opcodeRows) (hrow' : row' ∈ opcodeRows)
    (h : rowMatches w row = true) (h' : rowMatches w row' = true) : row = row' := by
  rw [rowMatches_iff] at h h'
  by_contra hne
  have symm : Std.Symm Separated := ⟨fun _ _ => Ne.symm⟩
  refine opcodeRows_separated.forall hrow hrow' hne ?_
  calc row.2 &&& row'.1 = (w &&& row'.1) &&& row.1 := by rw [← h]; ac_rfl
    _ = row'.2 &&& row.1 := by rw [h']

theorem isUnassignedWord_match : ∀ row ∈ opcodeRows, isUnassignedWord row.2 = false :=
  List.forall_iff_forall_mem.1 (by decide)

/-- R75: a row's major opcode decides which of the low bits its mask fixes. -/
theorem mask_of_op1 : ∀ row ∈ opcodeRows,
    row.1 = 0xFFFF#16 ∨
    (row.1 = 0xF000#16 ∧ row.2.toNat / 4096 ∉ [0x0, 0x5, 0x8, 0x9, 0xE, 0xF]) ∨
    (row.1 = 0xF00F#16 ∧ row.2.toNat / 4096 ∈ [0x5, 0x8, 0x9]) ∨
    (row.1 = 0xF0FF#16 ∧ row.2.toNat / 4096 ∈ [0xE, 0xF]) :=
  List.forall_iff_forall_mem.1 (by decide)

/-- A word of a row is in no group of R77: on the bits its group looks at it agrees with the row's match. -/
theorem isUnassignedWord_eq_false_of_rowMatches {row : Word × Word} (hrow : row ∈ opcodeRows)
    (h : rowMatches w row = true) : isUnassignedWord w = false := by
  have hm := isUnassignedWord_match row hrow
  have hmask := mask_of_op1 row hrow
  obtain ⟨mask, m⟩ := row
  rw [rowMatches_iff] at h
  rw [← Bool.not_eq_true, isUnassignedWord_iff_toNat] at hm ⊢
  simp only [List.mem_cons, List.not_mem_nil, or_false] at h hm hmask ⊢
  obtain rfl | ⟨rfl, hop⟩ | ⟨rfl, hop⟩ | ⟨rfl, hop⟩ := hmask
  · rwa [(maskFFFF_eq_iff w m).1 h]
  · rw [maskF000_eq_iff] at h
    have hop1 : w.toNat / 4096 = m.toNat / 4096 := by omega
    simp_all
  · rw [maskF00F_eq_iff] at h
    have hop1 : w.toNat / 4096 = m.toNat / 4096 := by omega
    have hn : w.toNat % 16 = m.toNat % 16 := by omega
    obtain h5 | h8 | h9 := hop <;> simp_all
  · rw [maskF0FF_eq_iff] at h
    have hop1 : w.toNat / 4096 = m.toNat / 4096 := by omega
    have hkk : w.toNat % 256 = m.toNat % 256 := by omega
    obtain hE | hF := hop <;> simp_all

/-! ## The dispatch of R74 -/

/-- Every word is unassigned or of a row, by what it decodes to. -/
theorem decodeWord_cases (w : Word) :
    (decodeWord w = .unassigned w ∧ isUnassignedWord w = true) ∨ rowOf (decodeWord w) ∈ opcodeRows := by
  by_cases h : ∃ w', decodeWord w = .unassigned w'
  · obtain ⟨w', h⟩ := h
    obtain ⟨hw, hwf⟩ := decodeWord_faithful w
    rw [h] at hw hwf
    obtain rfl : w' = w := hw
    exact .inl ⟨h, hwf⟩
  · exact .inr (rowOf_mem_opcodeRows _ fun w' hw' => h ⟨w', hw'⟩)

theorem decodeWord_eq_unassigned_iff : decodeWord w = .unassigned w ↔ isUnassignedWord w = true := by
  refine ⟨fun h => by simpa [h, Instr.wellFormed] using wellFormed_decodeWord w, fun h => ?_⟩
  obtain ⟨hd, -⟩ | hmem := decodeWord_cases w
  · exact hd
  · simp [isUnassignedWord_eq_false_of_rowMatches hmem (rowMatches_rowOf_decodeWord w)] at h

theorem isUnassignedWord_iff_no_row :
    isUnassignedWord w = true ↔ ∀ row ∈ opcodeRows, rowMatches w row = false := by
  refine ⟨fun h row hrow => ?_, fun h => ?_⟩
  · by_contra hm
    simp [isUnassignedWord_eq_false_of_rowMatches hrow (by simpa using hm)] at h
  · obtain ⟨-, hu⟩ | hmem := decodeWord_cases w
    · exact hu
    · exact absurd (rowMatches_rowOf_decodeWord w) (by rw [h _ hmem]; decide)

/-- A word selects the instruction of the row it satisfies. -/
theorem rowMatches_iff_rowOf_decodeWord {row : Word × Word} (hrow : row ∈ opcodeRows) :
    rowMatches w row = true ↔ rowOf (decodeWord w) = row := by
  refine ⟨fun h => ?_, fun h => h ▸ rowMatches_rowOf_decodeWord w⟩
  obtain ⟨-, hu⟩ | hmem := decodeWord_cases w
  · simp [isUnassignedWord_eq_false_of_rowMatches hrow h] at hu
  · exact rowMatches_unique hmem hrow (rowMatches_rowOf_decodeWord w) h

/-! ## Encoding, then decoding -/

/-- The decoder reads each operand back from its field, and an unassigned word as itself (R77). -/
theorem decodeWord_encode (i : Instr) (hi : i.wellFormed = true) : decodeWord (encode i) = i := by
  cases i with
  | cls => rfl
  | ret => rfl
  | unassigned w => exact decodeWord_eq_unassigned_iff.2 hi
  | _ => simp [encode, decodeWord, decodeWhenZero, decode8, decodeE, decodeF]

end Sys2Proof
end

section
/-! PROOFS. The statements about the encoding (30_encoding.md). -/

namespace Sys2Proof

/-- Settles O2: the two bytes are those of the instruction's word, and the decoder reads that word back field by field. -/
theorem decodeUndoesEncode : Obligations.DecodeUndoesEncode := by
  intro i rest hi
  rw [decodeBytes_encodeBytes, decodeWord_encode i hi]

/-- Settles O3: by the major opcode, each arm of the decoder is faithful to the word. -/
theorem encodeUndoesDecode : Obligations.EncodeUndoesDecode := decodeWord_faithful

/-- Settles O4: a word satisfies the row of the instruction it decodes to, and no two rows. -/
theorem eachWordSelectsItsRow : Obligations.EachWordSelectsItsRow := fun _ =>
  ⟨fun _ hrow => rowMatches_iff_rowOf_decodeWord hrow, fun _ hrow _ hrow' => rowMatches_unique hrow hrow',
    isUnassignedWord_iff_no_row.symm.trans decodeWord_eq_unassigned_iff.symm⟩

/-- Settles O5: a word decodes to a row's instruction or is enumerated by R77, never both. -/
theorem unassignedWordsAsEnumerated : Obligations.UnassignedWordsAsEnumerated := fun _ =>
  ⟨decodeWord_eq_unassigned_iff, isUnassignedWord_iff_no_row⟩

/-- Settles O1: the decoder evaluated on the vectors. -/
theorem sampleWordsDecode : Obligations.SampleWordsDecode := by
  unfold Obligations.SampleWordsDecode
  decide

end Sys2Proof
end

section
/-! SUPPORT. The cycle: a cycle is the fetch fault or the decoded instruction (R90, R91), and how the status of a dispatched
instruction ends (R96). -/

namespace Sys2Proof.Machine

variable {i : Instr} {s t : State}

/-! ## Fetch, decode, dispatch -/

/-- A cycle that fetches inside memory is the instruction its word decodes to (R91, R94). -/
theorem cycle_inRange (hrun : s.isHalted = false) (hpc : s.pc.toNat + 1 < 4096) :
    cycle s = exec (decodeWord (wordOfBytes (Memory.read s.mem s.pc.toNat) (Memory.read s.mem (s.pc.toNat + 1)))) s := by
  rw [cycle_running s hrun, fetch_inRange s hpc]

/-- A cycle that cannot fetch is the fault of R91, whose `addr` is the lowest address missing (R170). -/
theorem cycle_outside (hrun : s.isHalted = false) (hpc : ¬ s.pc.toNat + 1 < 4096) :
    cycle s = raise (.fetchOutOfRange s.pc (BitVec.ofNat 16 (max s.pc.toNat 4096))) s := by
  rw [cycle_running s hrun, fetch_outside s hpc, ← lowestOutside_eq]

/-- The two bytes at `a` decode to the instruction of the word they form, with no byte left over (R55, R70). -/
theorem decodeBytes_readBytes_two (m : Memory) (a : Nat) :
    decodeBytes (Memory.readBytes m a 2) =
      .ok (decodeWord (wordOfBytes (Memory.read m a) (Memory.read m (a + 1))), []) := rfl

/-! ## The timers in the footprint -/

theorem footprint_dt (i : Instr) (s : State) (hsetdt : ∀ x, i ≠ .setdt x) : (footprint i s).dt = false := by
  cases i with
  | setdt x => exact absurd rfl (hsetdt x)
  | _ => rfl

theorem footprint_st (i : Instr) (s : State) (hsetst : ∀ x, i ≠ .setst x) : (footprint i s).st = false := by
  cases i with
  | setst x => exact absurd rfl (hsetst x)
  | _ => rfl

/-! ## The result mirrors the status (D31) -/

theorem State.result_eq_fault_iff {r : Fault} : s.result = .fault r ↔ s.status = .halted r := by
  unfold State.result
  cases s.status <;> simp

theorem State.result_eq_awaitKey_iff : s.result = .awaitKey ↔ s.status = .awaitingKey := by
  unfold State.result
  cases s.status <;> simp

theorem State.isHalted_of_status {r : Fault} (h : s.status = .halted r) : s.isHalted = true := by
  rw [State.isHalted, h]

/-! ## The status after an instruction (R96) -/

/-- An instruction halts the CPU with the record of its fault, and only then. -/
theorem exec_halted_iff {r : Fault} (h : exec i s = .next t) : t.status = .halted r ↔ faultOf i s = some r := by
  cases effect_of_exec h with
  | faulted r' listed => rw [listed, Status.halted.injEq, Option.some.injEq]
  | completed _ noFault running _ _ =>
    have notHalted : t.status ≠ .halted r := fun hs => by simp [State.isHalted_of_status hs] at running
    simp [notHalted, noFault]

/-- The answer does not leave the CPU waiting for a key. -/
def NeverAwaits (p : Answer) : Prop := ∀ t, p = .next t → t.status ≠ .awaitingKey

theorem NeverAwaits.complete (s : State) : NeverAwaits (complete s) := fun _ h => by cases h; nofun

theorem NeverAwaits.raise (record : Fault) (s : State) : NeverAwaits (raise record s) := fun _ h => by cases h; nofun

theorem NeverAwaits.ite {c : Prop} [Decidable c] {p q : Answer} (hp : NeverAwaits p) (hq : NeverAwaits q) :
    NeverAwaits (if c then p else q) := by
  split <;> assumption

theorem finishKeySkip_neverAwaits (instr : Word) (key : Byte) (skipOn : Bool → Bool) (s : State) :
    NeverAwaits (finishKeySkip instr key skipOn s) := by
  unfold finishKeySkip
  split
  · exact .complete _
  · exact .raise _ _

/-- But for Fx0A every instruction ends in a completion or a fault. -/
theorem exec_neverAwaits (s : State) (hi : ∀ x, i ≠ .waitk x) : NeverAwaits (exec i s) := by
  cases i with
  | waitk x => exact absurd rfl (hi x)
  | skp x => exact finishKeySkip_neverAwaits _ _ (fun down => down) s
  | sknp x => exact finishKeySkip_neverAwaits _ _ _ s
  | drw x y n => exact .ite (.complete _) (.raise _ _)
  | bcd x => exact .ite (.complete _) (.raise _ _)
  | stm x => exact .ite (.complete _) (.raise _ _)
  | ldm x => exact .ite (.complete _) (.raise _ _)
  | ret => exact .ite (.raise _ _) (.complete _)
  | call nnn => exact .ite (.raise _ _) (.complete _)
  | _ => exact .complete _

/-- Fx0A leaves the CPU waiting exactly when no key is down (R154). -/
theorem execWaitk_awaits_iff {x : RegIndex} (h : execWaitk x s = .next t) :
    t.status = .awaitingKey ↔ Keypad.anyDown s.keypad = false := by
  unfold execWaitk at h
  cases hk : Keypad.anyDown s.keypad with
  | true =>
    rw [if_pos hk] at h
    have completes : NeverAwaits (finishV x (BitVec.ofNat _ (Keypad.pick s.keypad).val) s) := .complete _
    simp [completes t h]
  | false =>
    rw [if_neg (by simp [hk])] at h
    cases h
    simp

/-- An instruction leaves the CPU waiting exactly when it is Fx0A and no key is down. -/
theorem exec_awaits_iff (h : exec i s = .next t) :
    t.status = .awaitingKey ↔ (∃ x, i = .waitk x) ∧ Keypad.anyDown s.keypad = false := by
  by_cases hi : ∃ x, i = .waitk x
  · rw [and_iff_right hi]
    obtain ⟨x, rfl⟩ := hi
    exact execWaitk_awaits_iff h
  · have hne : ∀ x, i ≠ .waitk x := not_exists.mp hi
    exact iff_of_false (exec_neverAwaits s hne t h) fun hw => hi hw.1

end Sys2Proof.Machine
end

section
/-! PROOFS. The statements about the cycle (40_cycle.md). -/

namespace Sys2Proof.Machine

/-- Settles O18: the result mirrors the status, and the status says which fault, or that Fx0A found no key. -/
theorem resultMirrorsStatus : Obligations.ResultMirrorsStatus := fun _ _ _ h =>
  ⟨fun _ => State.result_eq_fault_iff.trans (exec_halted_iff h), State.result_eq_awaitKey_iff.trans (exec_awaits_iff h)⟩

/-- Settles O14: by the footprint, which never holds the keypad. -/
theorem timersAndKeypadWriters : Obligations.TimersAndKeypadWriters := by
  intro i s t h
  have frame := (effect_of_exec h).frame
  exact ⟨frame.keypad, fun hsetdt => frame.dt (footprint_dt i s hsetdt), fun hsetst => frame.st (footprint_st i s hsetst)⟩

/-- Settles O6: the step is a cycle, and the cycle runs the word of the two bytes at `pc`. -/
theorem stepRunsDecodedInstruction : Obligations.StepRunsDecodedInstruction := by
  intro s i hrun hnext hpc hdecode
  rw [decodeBytes_readBytes_two] at hdecode
  cases hdecode
  refine ⟨wellFormed_decodeWord _, ?_⟩
  rw [step_cycle s ((nextIsCycle_iff s).mp hnext)]
  exact cycle_inRange (s := s.popSchedule) hrun hpc

/-- Settles O7: both sides of the boundary of R91. -/
theorem fetchBigEndianOrFault : Obligations.FetchBigEndianOrFault := fun _ hrun =>
  ⟨fun hpc => cycle_outside hrun (Nat.not_lt.mpr hpc),
    fun hpc => ⟨_, wordOfBytes_toNat _ _, cycle_inRange hrun hpc⟩⟩

/-- Settles O41: the meaning is the advance, then the completion of the cycle. -/
theorem unassignedWordIsNoOp : Obligations.UnassignedWordIsNoOp := fun _ s => (complete_next s.advance _).mpr rfl

end Sys2Proof.Machine
end

section
/-! SUPPORT. Control transfer (41_control.md): skips on a comparison, the sum Bnnn jumps to, and the one answer of 2nnn and of
00EE on each side of its check of `sp`. -/

namespace Sys2Proof.Machine

variable {s u : State}

/-! ## Skips -/

/-- A skip on equal values (R104, R106). -/
theorem finishSkip_beq_spec (s : State) (a b : Byte) :
    ∃ t, finishSkip (a == b) s = .next t ∧ Frame {} s t ∧
      Completed (if a = b then s.pc + 4#16 else s.pc + 2#16) t := by
  obtain ⟨t, ht, hc, frame⟩ := finishSkip_spec s (a == b)
  rw [if_congr beq_iff_eq rfl rfl] at hc
  exact ⟨t, ht, frame, hc⟩

/-- A skip on different values (R105, R107). -/
theorem finishSkip_bne_spec (s : State) (a b : Byte) :
    ∃ t, finishSkip (a != b) s = .next t ∧ Frame {} s t ∧
      Completed (if a = b then s.pc + 2#16 else s.pc + 4#16) t := by
  obtain ⟨t, ht, hc, frame⟩ := finishSkip_spec s (a != b)
  rw [if_congr bne_iff_ne rfl rfl, ite_not] at hc
  exact ⟨t, ht, frame, hc⟩

/-! ## Jumps -/

/-- R108: the sum of an address and a byte does not wrap, and nothing masks it. -/
theorem addrToWord_add_byteToWord_toNat (nnn : Addr) (b : Byte) :
    (addrToWord nnn + byteToWord b).toNat = nnn.toNat + b.toNat := by
  have hnnn := nnn.isLt
  have hb := b.isLt
  rw [BitVec.toNat_add, addrToWord_toNat, byteToWord_toNat]
  omega

/-! ## Calls -/

/-- 2nnn with a slot free pushes `a + 2` and goes to `nnn` (R103). -/
theorem exec_call_pushes (nnn : Addr) (hsp : s.sp.val < 15) :
    exec (.call nnn) s = .next { s.push (s.pc + 2#16) with pc := addrToWord nnn, status := .running } :=
  if_neg (Nat.ne_of_lt hsp)

/-- 2nnn with every slot taken faults (R103, R170). -/
theorem exec_call_overflows (nnn : Addr) (hsp : s.sp.val = 15) :
    exec (.call nnn) s =
      .next { s with pc := s.pc + 2#16, status := .halted (.stackOverflow s.pc (encode (.call nnn))) } :=
  if_pos hsp

/-- With a slot free the raised `sp` does not wrap (R31). -/
theorem State.push_sp_val (ret : Word) (hsp : s.sp.val < 15) : (s.push ret).sp.val = s.sp.val + 1 :=
  Fin.val_add_one_of_lt (n := 15) hsp

/-! ## Returns -/

/-- 00EE with an address on the stack pops it (R101). -/
theorem exec_ret_pops (hsp : 0 < s.sp.val) :
    exec .ret s = .next { s with pc := s.top, sp := s.sp - 1, status := .running } :=
  if_neg (Fin.ne_of_gt hsp)

/-- 00EE with an empty stack faults (R101, R170). -/
theorem exec_ret_underflows (hsp : s.sp.val = 0) :
    exec .ret s = .next { s with pc := s.pc + 2#16, status := .halted (.stackUnderflow s.pc 0x00EE#16) } :=
  if_pos (Fin.ext hsp)

/-- The lowered `sp` does not wrap (R31). -/
theorem State.popToPc_sp_val (hsp : 0 < s.sp.val) : s.popToPc.sp.val + 1 = s.sp.val := by
  have hval : s.popToPc.sp.val = s.sp.val - 1 := Fin.val_sub_one_of_ne_zero (Fin.ne_of_gt hsp)
  omega

/-- The top of the stack is read from `sp` and the slots alone (R31). -/
theorem State.top_congr (hsp : u.sp = s.sp) (hstack : u.stack = s.stack) : u.top = s.top := by
  simp only [State.top, hsp, hstack]

end Sys2Proof.Machine
end

section
/-! PROOFS. The statements about control transfer (41_control.md). -/

namespace Sys2Proof.Machine

/-- Settles O40: the return reads the pushed slot, and its `sp - 1` takes back the call's `sp + 1`. -/
theorem callThenRetReturns : Obligations.CallThenRetReturns := by
  intro nnn s hsp
  refine ⟨_, exec_call_pushes nnn hsp, fun u (husp : u.sp = (s.push (s.pc + 2#16)).sp) hustack => ?_⟩
  have hpos : 0 < u.sp.val := by
    rw [husp, State.push_sp_val _ hsp]
    exact Nat.succ_pos _
  have htop : u.top = s.pc + 2#16 := (State.top_congr husp hustack).trans (State.top_push s _)
  have hback : u.sp - 1 = s.sp := by rw [husp, State.push_sp, add_sub_cancel_right]
  exact ⟨_, exec_ret_pops hpos, ⟨htop, rfl⟩, hback⟩

/-- Settles O35: 3xkk skips on equal values, 4xkk on different ones. -/
theorem skipsOnImmediate : Obligations.SkipsOnImmediate := fun x kk s =>
  ⟨finishSkip_beq_spec s (s.getV x) kk, finishSkip_bne_spec s (s.getV x) kk⟩

/-- Settles O36: 5xy0 skips on equal values, 9xy0 on different ones. -/
theorem skipsOnRegisters : Obligations.SkipsOnRegisters := fun x y s =>
  ⟨finishSkip_beq_spec s (s.getV x) (s.getV y), finishSkip_bne_spec s (s.getV x) (s.getV y)⟩

/-- Settles O37: both are jumps, and neither target wraps. -/
theorem jumpsGoToTheirTarget : Obligations.JumpsGoToTheirTarget := by
  intro nnn s
  constructor
  · obtain ⟨t, ht, ⟨hpc, hrun⟩, frame⟩ := finishJump_spec s (addrToWord nnn)
    exact ⟨t, ht, by rw [hpc, addrToWord_toNat], hrun, frame⟩
  · obtain ⟨t, ht, ⟨hpc, hrun⟩, frame⟩ := finishJump_spec s (addrToWord nnn + byteToWord (s.getV 0))
    exact ⟨t, ht, by rw [hpc, addrToWord_add_byteToWord_toNat], hrun, frame⟩

/-- Settles O38: a push with a slot free, the fault of R170 with none. -/
theorem callPushesReturnAddress : Obligations.CallPushesReturnAddress := by
  intro nnn s
  constructor
  · intro hsp
    exact ⟨_, exec_call_pushes nnn hsp, addrToWord_toNat nnn, rfl, State.push_sp_val (s.pc + 2#16) hsp,
      State.top_push s (s.pc + 2#16), State.slot_push_ne s (s.pc + 2#16), frame_stack s _ _ _⟩
  · intro hsp
    exact ⟨_, exec_call_overflows nnn hsp, rfl, rfl, Frame.of_pc_status s _ _ _⟩

/-- Settles O39: a pop of a stack that is not empty, the fault of R170 of one that is. -/
theorem retPopsReturnAddress : Obligations.RetPopsReturnAddress := by
  intro s
  constructor
  · intro hsp
    exact ⟨_, exec_ret_pops hsp, ⟨rfl, rfl⟩, State.popToPc_sp_val hsp, rfl, frame_stack s _ _ _⟩
  · intro hsp
    exact ⟨_, exec_ret_underflows hsp, rfl, rfl, Frame.of_pc_status s _ _ _⟩

end Sys2Proof.Machine
end

section
/-! SUPPORT. Load, arithmetic, logic (42_alu.md): the flags and the results as numbers, and the shapes of instructions whose
statement names the operation and not the byte. -/

namespace Sys2Proof.Machine

/-! ## Flags -/

/-- A flag that is decided, as the statements write it (R14). -/
theorem flagByte_decide (p : Prop) [Decidable p] : flagByte (decide p) = if p then 0x01#8 else 0x00#8 :=
  if_congr decide_eq_true_iff rfl rfl

theorem flagByte_toNat (b : Bool) : (flagByte b).toNat = b.toNat := by cases b <;> rfl

/-- The flag of 8xy6 is the value modulo 2 (R119). -/
theorem flagByte_shiftedOutRight_toNat (a : Byte) : (flagByte (shiftedOutRight a)).toNat = a.toNat % 2 := by
  rw [flagByte_toNat, shiftedOutRight, BitVec.getLsbD, Nat.toNat_testBit, pow_zero, Nat.div_one]

/-- The flag of 8xyE says whether the value is at least 128 (R121). -/
theorem flagByte_shiftedOutLeft_toNat (a : Byte) : (flagByte (shiftedOutLeft a)).toNat = a.toNat / 128 := by
  have hbit : (flagByte (shiftedOutLeft a)).toNat = a.toNat / 128 % 2 := by
    rw [flagByte_toNat, shiftedOutLeft, BitVec.getLsbD, Nat.toNat_testBit]
  have ha := a.isLt
  omega

/-! ## Results -/

/-- The difference wraps to the integer difference modulo 256 (R118, R120). -/
theorem sub_toNat_eq_emod (a b : Byte) : ((a - b).toNat : Int) = ((a.toNat : Int) - (b.toNat : Int)) % 256 := by
  have ha := a.isLt
  have hb := b.isLt
  rw [BitVec.toNat_sub]
  omega

/-- A shift left doubles modulo 256 (R121). -/
theorem shiftLeft_one_toNat (a : Byte) : (a <<< 1).toNat = a.toNat * 2 % 256 := by
  rw [BitVec.toNat_shiftLeft, Nat.shiftLeft_eq, pow_one]

/-! ## Shapes -/

/-- A register written with a byte that is given bit by bit (R114 to R116). -/
theorem finishV_bits_spec (s : State) (x : RegIndex) {b : Byte} {bit : Nat → Bool} (hb : ∀ k, b.getLsbD k = bit k) :
    ∃ t, finishV x b s = .next t ∧ Completed (s.pc + 2#16) t ∧ Frame { v := [x] } s t ∧
      ∀ k, (t.getV x).getLsbD k = bit k := by
  obtain ⟨t, ht, hc, hv, frame⟩ := finishV_spec s x b
  exact ⟨t, ht, hc, frame, fun k => by rw [hv, hb]⟩

/-- A difference, then its no-borrow flag, whichever register is the minuend (R118, R120). -/
theorem finishDifference_spec (s : State) (x : RegIndex) (a b : Byte) :
    ∃ t, finishResultThenFlag x (a - b) (noBorrow a b) s = .next t ∧ Completed (s.pc + 2#16) t ∧
      (x ≠ regF → ((t.getV x).toNat : Int) = ((a.toNat : Int) - (b.toNat : Int)) % 256) ∧
      t.getV regF = (if a.toNat ≥ b.toNat then 0x01#8 else 0x00#8) ∧ Frame { v := [x, regF] } s t := by
  obtain ⟨t, ht, hc, hflag, hv, frame⟩ := finishResultThenFlag_spec s x (a - b) (noBorrow a b)
  exact ⟨t, ht, hc, fun hx => by rw [hv hx, sub_toNat_eq_emod], hflag.trans (flagByte_decide _), frame⟩

end Sys2Proof.Machine
end

section
/-! PROOFS. The statements about load, arithmetic, logic and random (42_alu.md). -/

namespace Sys2Proof.Machine

/-- Settles O25: one register written. -/
theorem ldiLoadsImmediate : Obligations.LdiLoadsImmediate := fun x kk s => finishV_spec s x kk

/-- Settles O26: one register written, with a sum of bytes. -/
theorem addiWrapsWithoutFlag : Obligations.AddiWrapsWithoutFlag := by
  intro x kk s
  obtain ⟨t, ht, hc, hv, frame⟩ := finishV_spec s x (s.getV x + kk)
  exact ⟨t, ht, hc, by rw [hv, BitVec.toNat_add], frame⟩

/-- Settles O27: one register written. -/
theorem movCopiesRegister : Obligations.MovCopiesRegister := fun x y s => finishV_spec s x (s.getV y)

/-- Settles O28: each operation acts bit by bit. -/
theorem logicIsBitwiseWithoutFlag : Obligations.LogicIsBitwiseWithoutFlag := fun x _ s =>
  ⟨finishV_bits_spec s x fun _ => BitVec.getLsbD_or, finishV_bits_spec s x fun _ => BitVec.getLsbD_and,
    finishV_bits_spec s x fun _ => BitVec.getLsbD_xor⟩

/-- Settles O29: the sum, then the carry. -/
theorem addWritesSumThenCarry : Obligations.AddWritesSumThenCarry := by
  intro x y s
  obtain ⟨t, ht, hc, hflag, hv, frame⟩ :=
    finishResultThenFlag_spec s x (s.getV x + s.getV y) (carryOut (s.getV x) (s.getV y))
  exact ⟨t, ht, hc, fun hx => by rw [hv hx, BitVec.toNat_add], hflag.trans (flagByte_decide _), frame⟩

/-- Settles O30: `vx` is the minuend. -/
theorem subWritesDifferenceThenNoBorrow : Obligations.SubWritesDifferenceThenNoBorrow := fun x y s =>
  finishDifference_spec s x (s.getV x) (s.getV y)

/-- Settles O31: `vy` is the minuend. -/
theorem subnWritesReverseDifferenceThenNoBorrow : Obligations.SubnWritesReverseDifferenceThenNoBorrow := fun x y s =>
  finishDifference_spec s x (s.getV y) (s.getV x)

/-- Settles O32: bit 0, then the half. -/
theorem shrWritesBitThenHalf : Obligations.ShrWritesBitThenHalf := by
  intro x y s
  obtain ⟨t, ht, hc, hv, hflag, frame⟩ :=
    finishFlagThenResult_spec s x (s.getV x >>> 1) (shiftedOutRight (s.getV x))
  exact ⟨t, ht, hc, fun hx => by rw [hflag hx, flagByte_shiftedOutRight_toNat],
    by rw [hv, BitVec.toNat_ushiftRight, Nat.shiftRight_one], frame⟩

/-- Settles O33: bit 7, then the double. -/
theorem shlWritesBitThenDouble : Obligations.ShlWritesBitThenDouble := by
  intro x y s
  obtain ⟨t, ht, hc, hv, hflag, frame⟩ :=
    finishFlagThenResult_spec s x (s.getV x <<< 1) (shiftedOutLeft (s.getV x))
  exact ⟨t, ht, hc, fun hx => by rw [hflag hx, flagByte_shiftedOutLeft_toNat], by rw [hv, shiftLeft_one_toNat], frame⟩

/-- Settles O34: the register is written on the state whose draw counter has moved on; the frame is the footprint of Cxkk. -/
theorem rndMasksAFreeByte : Obligations.RndMasksAFreeByte := by
  intro x kk s
  obtain ⟨t, ht, hc, hv, drawnFrame⟩ := finishV_spec s.drawn x (s.rnd &&& kk)
  have hexec : exec (.rnd x kk) s = .next t := ht
  exact ⟨t, hexec, hc, drawnFrame.rndDraws rfl, fun k => by rw [hv, BitVec.getLsbD_and, State.rnd],
    (effect_of_exec hexec).frame⟩

end Sys2Proof.Machine
end

section
/-! SUPPORT. The index register and memory (43_index_memory.md): a write of `I`, the answers of Fx33 and Fx65 inside
memory, and the one answer of any instruction that meets a fault of R170's table. -/

namespace Sys2Proof.Machine

variable {i : Instr} {s t : State}

/-! ## Faults -/

/-- An instruction that meets a fault of the table answers the advanced state, halted with the record, and nothing else
changed (R170, R174). -/
theorem exec_faults {r : Fault} (hf : faultOf i s = some r) :
    ∃ t, exec i s = .next t ∧ t.pc = s.pc + 2#16 ∧ t.status = .halted r ∧ Frame {} s t := by
  obtain ⟨t, ht, effect⟩ := exec_effect i s
  cases effect with
  | faulted r' listed =>
    cases listed.symm.trans hf
    exact ⟨_, ht, rfl, rfl, Frame.of_pc_status s _ _ _⟩
  | completed _ noFault => cases noFault.symm.trans hf

/-! ## The index register -/

/-- `I` written, nothing else (R131 to R133). -/
theorem complete_index_spec (s : State) (w : Word) :
    ∃ t, complete { s.advance with i := w } = .next t ∧ Completed (s.pc + 2#16) t ∧ t.i = w ∧
      Frame { i := true } s t :=
  ⟨_, rfl, ⟨rfl, rfl⟩, rfl, fun _ _ => rfl, nofun, fun _ => ⟨rfl, rfl⟩, fun _ => rfl, fun _ => rfl, fun _ _ => rfl,
    fun _ => rfl, fun _ => rfl, rfl, rfl⟩

/-! ## Digits -/

/-- Fx33 inside memory stores the three digits of `vx` (R134). -/
theorem exec_bcd_fits (x : RegIndex) (h : s.i.toNat + 3 ≤ 4096) :
    exec (.bcd x) s = .next (s.stored (bcdDigits (s.getV x))) := by
  change execBcd x s = _
  unfold execBcd
  rw [withOperand_fits s _ _ _ h]
  rfl

/-- Each digit fits in its byte (R134). -/
theorem bcdDigits_map_toNat (b : Byte) :
    (bcdDigits b).map BitVec.toNat = [b.toNat / 100, b.toNat / 10 % 10, b.toNat % 10] := by
  have hb := b.isLt
  have hundreds : b.toNat / 100 < 2 ^ 8 := by omega
  have tens : b.toNat / 10 % 10 < 2 ^ 8 := by omega
  have ones : b.toNat % 10 < 2 ^ 8 := by omega
  simp only [bcdDigits, List.map_cons, List.map_nil, BitVec.toNat_ofNat, Nat.mod_eq_of_lt, hundreds, tens, ones]

/-- What a store leaves at `I + j`, as a number (R56). -/
theorem toNat_read_stored {bs : List Byte} {ns : List Nat} {j n : Nat} (hbs : bs.map BitVec.toNat = ns)
    (hn : ns[j]? = some n) : (Memory.read (s.stored bs).mem (s.i.toNat + j)).toNat = n := by
  subst hbs
  obtain ⟨hj, rfl⟩ := List.getElem?_eq_some_iff.mp hn
  have hjbs : j < bs.length := by rwa [List.length_map] at hj
  rw [List.getElem_map]
  exact congrArg BitVec.toNat (Memory.read_writeBytes_inside s.mem s.i.toNat j bs hjbs)

/-! ## Loads -/

/-- `V[0]` to `V[x]` loaded from `I`, all else but the advance as before. -/
def State.loaded (s : State) (x : RegIndex) : State :=
  { s.advance.loadLowRegisters x with status := .running }

/-- Fx65 inside memory loads the registers up to `x` (R136). -/
theorem exec_ldm_fits (x : RegIndex) (h : s.i.toNat + blockLength x ≤ 4096) :
    exec (.ldm x) s = .next (s.loaded x) := by
  change execLdm x s = _
  unfold execLdm
  rw [withOperand_fits s _ _ _ h]
  rfl

/-- A register up to `x` is the byte at its place (R136). -/
theorem State.getV_loaded {x j : RegIndex} (hj : j ≤ x) :
    (s.loaded x).getV j = Memory.read s.mem (s.i.toNat + j.val) :=
  (State.getV_loadLowRegisters s.advance x j).trans (if_pos hj)

/-- A register above `x` stays (R136). -/
theorem State.getV_loaded_above {x j : RegIndex} (hj : x < j) : (s.loaded x).getV j = s.getV j :=
  (State.getV_loadLowRegisters s.advance x j).trans (if_neg (not_le_of_gt hj))

/-- A frame that leaves out the registers of a list leaves out those of a longer one. -/
theorem Frame.mono_v {c : MayChange} {rs : List RegIndex} (h : Frame c s t) (hrs : c.v ⊆ rs) :
    Frame { c with v := rs } s t :=
  { h with v := fun r hr => h.v r fun hc => hr (hrs hc) }

end Sys2Proof.Machine
end

section
/-! PROOFS. The statements about the index register and memory (43_index_memory.md). -/

namespace Sys2Proof.Machine

/-- Settles O46: the load reads each byte where the store put it. -/
theorem storedRegistersLoadBack : Obligations.StoredRegistersLoadBack := by
  intro x s hfit
  have hblock : s.i.toNat + blockLength x ≤ 4096 := Nat.succ_le_succ hfit
  refine ⟨_, exec_stm_fits x hblock, fun u hi hmem => ?_⟩
  refine ⟨_, exec_ldm_fits x (by rwa [hi]), fun j hj => ?_⟩
  rw [State.getV_loaded hj, hi, hmem, read_stored_lowRegisters x j hj]

/-- Settles O42: each writes `I` alone, and only the sum of Fx1E can wrap. -/
theorem indexRegisterWrites : Obligations.IndexRegisterWrites := by
  refine ⟨fun nnn s => ?_, fun x s => ?_, fun x s => ?_⟩
  · obtain ⟨t, ht, hc, hi, frame⟩ := complete_index_spec s (addrToWord nnn)
    exact ⟨t, ht, hc, by rw [hi, addrToWord_toNat], frame⟩
  · obtain ⟨t, ht, hc, hi, frame⟩ := complete_index_spec s (s.i + byteToWord (s.getV x))
    exact ⟨t, ht, hc, by rw [hi, BitVec.toNat_add, byteToWord_toNat]; rfl, frame⟩
  · obtain ⟨t, ht, hc, hi, frame⟩ := complete_index_spec s (glyphAddress (s.getV x))
    exact ⟨t, ht, hc, by rw [hi, glyphAddress_toNat], frame⟩

/-- Settles O43: a store of the digits inside memory, the fault of R170 outside. -/
theorem bcdStoresDigits : Obligations.BcdStoresDigits := by
  intro x s
  constructor
  · intro hfit
    have hdigits := bcdDigits_map_toNat (s.getV x)
    exact ⟨_, exec_bcd_fits x (by omega), ⟨rfl, rfl⟩, toNat_read_stored (j := 0) hdigits rfl,
      toNat_read_stored hdigits rfl, toNat_read_stored hdigits rfl, frame_stored s (bcdDigits (s.getV x))⟩
  · intro hout
    exact exec_faults (if_pos (by omega))

/-- Settles O44: a store of the registers inside memory, the fault of R170 outside. -/
theorem stmStoresLowRegisters : Obligations.StmStoresLowRegisters := by
  intro x s
  constructor
  · intro hfit
    have frame := frame_stored s (s.lowRegisters x)
    rw [State.lowRegisters_length] at frame
    exact ⟨_, exec_stm_fits x (Nat.succ_le_succ hfit), ⟨rfl, rfl⟩, read_stored_lowRegisters x, frame⟩
  · intro hout
    exact exec_faults (if_pos (Nat.succ_lt_succ hout))

/-- Settles O45: a load of the registers inside memory, the fault of R170 outside. -/
theorem ldmLoadsLowRegisters : Obligations.LdmLoadsLowRegisters := by
  intro x s
  constructor
  · intro hfit
    exact ⟨_, exec_ldm_fits x (Nat.succ_le_succ hfit), ⟨rfl, rfl⟩, fun _ => State.getV_loaded,
      fun _ => State.getV_loaded_above, (frame_loaded x s).mono_v fun r _ => List.mem_finRange r⟩
  · intro hout
    exact exec_faults (if_pos (Nat.succ_lt_succ hout))

end Sys2Proof.Machine
end

section
/-! SUPPORT. The display (44_display.md): `draw` toggles the cells of a list, one for each set pixel; with at most 15 rows no
cell is listed twice (R146 (b)), so each is toggled once. Then the answers of Dxyn, `get` and `set`. -/

namespace Sys2Proof.Machine

variable {x0 y0 : Nat} {rows : List Byte} {py : Fin 32} {px : Fin 64}

/-! ## Toggling a list of cells -/

/-- Where a cell stands: its row and its column (R37). -/
abbrev Place := Fin 32 × Fin 64

/-- One cell toggled, and the collision so far (R143). -/
def toggleCell (acc : Display × Bool) (p : Place) : Display × Bool :=
  (Display.setCell acc.1 p.1 p.2 (!Display.cell acc.1 p.1 p.2), acc.2 || Display.cell acc.1 p.1 p.2)

theorem cell_toggleCell (acc : Display × Bool) (p q : Place) :
    Display.cell (toggleCell acc p).1 q.1 q.2 =
      if q = p then !Display.cell acc.1 q.1 q.2 else Display.cell acc.1 q.1 q.2 := by
  rw [toggleCell, Display.cell_setCell, if_congr Prod.ext_iff.symm rfl rfl]
  split
  · next h => rw [h]
  · rfl

/-- Cells listed once are toggled, the others stay. -/
theorem cell_foldl_toggleCell {cells : List Place} (hcells : cells.Nodup) (acc : Display × Bool) (q : Place) :
    Display.cell (cells.foldl toggleCell acc).1 q.1 q.2 =
      if q ∈ cells then !Display.cell acc.1 q.1 q.2 else Display.cell acc.1 q.1 q.2 := by
  induction cells generalizing acc with
  | nil => rfl
  | cons p cells ih =>
    obtain ⟨hp, hcells⟩ := List.nodup_cons.mp hcells
    rw [List.foldl_cons, ih hcells, cell_toggleCell]
    by_cases hqp : q = p
    · subst hqp; simp [hp]
    · simp [hqp]

/-- Cells listed once collide exactly where one of them was on. -/
theorem foldl_toggleCell_collides_iff {cells : List Place} (hcells : cells.Nodup) (acc : Display × Bool) :
    (cells.foldl toggleCell acc).2 = true ↔
      acc.2 = true ∨ ∃ q ∈ cells, Display.cell acc.1 q.1 q.2 = true := by
  induction cells generalizing acc with
  | nil => simp
  | cons p cells ih =>
    obtain ⟨hp, hcells⟩ := List.nodup_cons.mp hcells
    have later : ∀ q ∈ cells, Display.cell (toggleCell acc p).1 q.1 q.2 = Display.cell acc.1 q.1 q.2 := by
      intro q hq
      rw [cell_toggleCell, if_neg (ne_of_mem_of_not_mem hq hp)]
    have now : (toggleCell acc p).2 = true ↔ acc.2 = true ∨ Display.cell acc.1 p.1 p.2 = true := Bool.or_eq_true_iff
    have rest : (∃ q ∈ cells, Display.cell (toggleCell acc p).1 q.1 q.2 = true) ↔
        ∃ q ∈ cells, Display.cell acc.1 q.1 q.2 = true :=
      exists_congr fun q => and_congr_right fun hq => by rw [later q hq]
    rw [List.foldl_cons, ih hcells, now, rest, List.exists_mem_cons_iff, or_assoc]

/-! ## The cells of a sprite -/

/-- The cell a pixel `(r, c)` lands on (R143). -/
def pixelCell (x0 y0 r c : Nat) : Place :=
  (Fin.ofNat 32 (y0 + r), Fin.ofNat 64 (x0 + c))

/-- The cells the set pixels of row `r` land on, column by column. -/
def rowCells (x0 y0 r : Nat) (row : Byte) : List Place :=
  ((List.range 8).filter (spriteBit row)).map (pixelCell x0 y0 r)

/-- The cells the set pixels of the rows from row `r` on land on, in the order of `draw`. -/
def spriteCells (x0 y0 : Nat) : Nat → List Byte → List Place
  | _, [] => []
  | r, row :: rows => rowCells x0 y0 r row ++ spriteCells x0 y0 (r + 1) rows

theorem drawRow_eq_foldl (x0 y0 r : Nat) (row : Byte) (acc : Display × Bool) :
    drawRow x0 y0 r row acc = (rowCells x0 y0 r row).foldl toggleCell acc := by
  rw [rowCells, List.foldl_map, List.foldl_filter]
  rfl

theorem drawRows_eq_foldl (x0 y0 r : Nat) (rows : List Byte) (acc : Display × Bool) :
    drawRows x0 y0 r rows acc = (spriteCells x0 y0 r rows).foldl toggleCell acc := by
  induction rows generalizing r acc with
  | nil => rfl
  | cons row rows ih => rw [drawRows, ih, drawRow_eq_foldl, spriteCells, List.foldl_append]

theorem pixelCell_eq_iff {r c : Nat} :
    pixelCell x0 y0 r c = (py, px) ↔ (y0 + r) % 32 = py.val ∧ (x0 + c) % 64 = px.val := by
  rw [pixelCell, Prod.mk.injEq, Fin.ext_iff, Fin.ext_iff]
  rfl

theorem mem_rowCells_iff {r : Nat} {row : Byte} :
    (py, px) ∈ rowCells x0 y0 r row ↔
      ∃ c < 8, row.getLsbD (7 - c) = true ∧ (x0 + c) % 64 = px.val ∧ (y0 + r) % 32 = py.val := by
  simp only [rowCells, List.mem_map, List.mem_filter, List.mem_range, and_assoc, pixelCell_eq_iff]
  exact exists_congr fun c => and_congr_right' (and_congr_right' and_comm)

theorem mem_spriteCells_iff {r : Nat} {q : Place} :
    q ∈ spriteCells x0 y0 r rows ↔ ∃ k row, rows[k]? = some row ∧ q ∈ rowCells x0 y0 (r + k) row := by
  induction rows generalizing r with
  | nil => simp [spriteCells]
  | cons row rows ih =>
    rw [spriteCells, List.mem_append, ih]
    constructor
    · rintro (hq | ⟨k, row', hk, hq⟩)
      · exact ⟨0, row, rfl, hq⟩
      · exact ⟨k + 1, row', hk, by rwa [← Nat.add_assoc, Nat.add_right_comm]⟩
    · rintro ⟨_ | k, row', hk, hq⟩
      · cases hk
        exact .inl hq
      · exact .inr ⟨k, row', hk, by rwa [Nat.add_right_comm, Nat.add_assoc]⟩

/-- The listed cells are those the sprite covers. -/
theorem mem_spriteCells_iff_covers : (py, px) ∈ spriteCells x0 y0 0 rows ↔ spriteCovers x0 y0 rows py px := by
  simp only [mem_spriteCells_iff, mem_rowCells_iff, Nat.zero_add, spriteCovers, pixelHits]
  constructor
  · rintro ⟨r, row, hrow, c, hc, hbit, hplace⟩
    exact ⟨r, c, hc, ⟨row, hrow, hbit⟩, hplace⟩
  · rintro ⟨r, c, hc, ⟨row, hrow, hbit⟩, hplace⟩
    exact ⟨r, row, hrow, c, hc, hbit, hplace⟩

/-- Eight columns are fewer than 64, so a row visits no cell twice. -/
theorem nodup_rowCells (x0 y0 r : Nat) (row : Byte) : (rowCells x0 y0 r row).Nodup := by
  refine (List.nodup_range.filter _).map_on fun c hc c' hc' h => ?_
  have hc8 := List.mem_range.mp (List.mem_of_mem_filter hc)
  have hc8' := List.mem_range.mp (List.mem_of_mem_filter hc')
  have hcol : (x0 + c) % 64 = (x0 + c') % 64 := (pixelCell_eq_iff.mp h).2
  omega

/-- At most 32 rows, so no two of them visit one cell (R146 (b)). -/
theorem nodup_spriteCells (x0 y0 r : Nat) (hrows : rows.length ≤ 32) : (spriteCells x0 y0 r rows).Nodup := by
  induction rows generalizing r with
  | nil => exact List.nodup_nil
  | cons row rows ih =>
    rw [List.length_cons] at hrows
    refine (nodup_rowCells x0 y0 r row).append (ih (r + 1) (by omega)) ?_
    intro ⟨py, px⟩ hrow hlater
    obtain ⟨k, row', hk, hq⟩ := mem_spriteCells_iff.mp hlater
    obtain ⟨_, _, _, _, hy⟩ := mem_rowCells_iff.mp hrow
    obtain ⟨_, _, _, _, hy'⟩ := mem_rowCells_iff.mp hq
    have hlen := (List.getElem?_eq_some_iff.mp hk).1
    omega

/-! ## `draw` -/

theorem draw_eq_foldl (d : Display) (x0 y0 : Nat) (rows : List Byte) :
    Display.draw d x0 y0 rows = (spriteCells x0 y0 0 rows).foldl toggleCell (d, false) :=
  drawRows_eq_foldl x0 y0 0 rows (d, false)

theorem cell_draw (d : Display) (hrows : rows.length ≤ 15) :
    Display.cell (Display.draw d x0 y0 rows).1 py px =
      if (py, px) ∈ spriteCells x0 y0 0 rows then !Display.cell d py px else Display.cell d py px := by
  rw [draw_eq_foldl]
  exact cell_foldl_toggleCell (nodup_spriteCells x0 y0 0 (by omega)) _ (py, px)

/-- A covered cell is toggled (R143). -/
theorem cell_draw_of_covers (d : Display) (hrows : rows.length ≤ 15) (h : spriteCovers x0 y0 rows py px) :
    Display.cell (Display.draw d x0 y0 rows).1 py px = !Display.cell d py px :=
  (cell_draw d hrows).trans (if_pos (mem_spriteCells_iff_covers.mpr h))

/-- Every other cell stays (R143). -/
theorem cell_draw_of_not_covers (d : Display) (hrows : rows.length ≤ 15) (h : ¬ spriteCovers x0 y0 rows py px) :
    Display.cell (Display.draw d x0 y0 rows).1 py px = Display.cell d py px :=
  (cell_draw d hrows).trans (if_neg (mem_spriteCells_iff_covers.not.mpr h))

/-- The collision says whether a covered cell was on (R146 (a)). -/
theorem draw_collides_iff (d : Display) (hrows : rows.length ≤ 15) :
    (Display.draw d x0 y0 rows).2 = true ↔
      ∃ py px, spriteCovers x0 y0 rows py px ∧ Display.cell d py px = true := by
  rw [draw_eq_foldl, foldl_toggleCell_collides_iff (nodup_spriteCells x0 y0 0 (by omega))]
  simp only [Bool.false_eq_true, false_or, Prod.exists, mem_spriteCells_iff_covers]

/-- A second draw toggles each covered cell back (R146 (e)). -/
theorem draw_draw (d : Display) (x0 y0 : Nat) (hrows : rows.length ≤ 15) :
    (Display.draw (Display.draw d x0 y0 rows).1 x0 y0 rows).1 = d := by
  refine Display.ext_cell _ _ fun py px => ?_
  by_cases h : spriteCovers x0 y0 rows py px
  · rw [cell_draw_of_covers _ hrows h, cell_draw_of_covers d hrows h, Bool.not_not]
  · rw [cell_draw_of_not_covers _ hrows h, cell_draw_of_not_covers d hrows h]

/-- A row that is not 0 has a set pixel, which lands on some cell. -/
theorem exists_covers_of_ne_zero {row : Byte} (hrow : row ∈ rows) (hne : row ≠ 0x00#8) (x0 y0 : Nat) :
    ∃ py px, spriteCovers x0 y0 rows py px := by
  obtain ⟨r, hr⟩ := List.mem_iff_getElem?.mp hrow
  obtain ⟨j, hj, hbit⟩ : ∃ j < 8, row.getLsbD j = true := by
    by_contra h
    push Not at h
    exact hne (BitVec.eq_of_getLsbD_eq fun j hj => by simpa using h j hj)
  have hcol : 7 - (7 - j) = j := by omega
  exact ⟨_, _, r, 7 - j, by omega, ⟨row, hr, by rwa [hcol]⟩, (pixelCell_eq_iff.mp rfl).symm⟩

/-! ## Dxyn -/

/-- The draw Dxyn makes of the `n` bytes at `I` (R145). -/
def State.spriteDrawn (s : State) (x y : RegIndex) (n : Nibble) : Display × Bool :=
  Display.draw s.display (s.getV x).toNat (s.getV y).toNat (Memory.readBytes s.mem s.i.toNat n.toNat)

/-- Dxyn with its rows inside memory draws them and writes the collision (R145). -/
theorem exec_drw_fits {s : State} (x y : RegIndex) (n : Nibble) (h : s.i.toNat + n.toNat ≤ 4096) :
    exec (.drw x y n) s =
      .next { State.setFlag { s.advance with display := (s.spriteDrawn x y n).1 } (s.spriteDrawn x y n).2 with
        status := .running } := by
  change execDrw x y n s = _
  unfold execDrw
  rw [withOperand_fits s _ _ _ h]
  rfl

/-! ## `get` and `set` -/

theorem displayGet_inRange (px : Fin 64) (py : Fin 32) (s : State) :
    displayGet px.val py.val s = .ok (Display.cell s.display py px) :=
  dif_pos ⟨px.isLt, py.isLt⟩

theorem displaySet_inRange (px : Fin 64) (py : Fin 32) (on : Bool) (s : State) :
    displaySet px.val py.val on s = .ok { s with display := Display.setCell s.display py px on } :=
  dif_pos ⟨px.isLt, py.isLt⟩

theorem displayGet_outside {x y : Nat} (s : State) (h : 64 ≤ x ∨ 32 ≤ y) : displayGet x y s = .error .coordinate :=
  dif_neg (by dsimp only; omega)

theorem displaySet_outside {x y : Nat} (on : Bool) (s : State) (h : 64 ≤ x ∨ 32 ≤ y) :
    displaySet x y on s = .error .coordinate :=
  dif_neg (by dsimp only; omega)

end Sys2Proof.Machine
end

section
/-! PROOFS. The statements about the display (44_display.md). -/

namespace Sys2Proof.Machine

/-- Settles O50: `draw` visits the covered cells, each once. -/
theorem drawTogglesSpriteCells : Obligations.DrawTogglesSpriteCells := fun d _ _ _ hrows =>
  ⟨fun _ _ => ⟨cell_draw_of_covers d hrows, cell_draw_of_not_covers d hrows⟩, draw_collides_iff d hrows⟩

/-- Settles O51: the second draw toggles each covered cell back; over a clear area it finds them all on. -/
theorem drawTwiceErases : Obligations.DrawTwiceErases := by
  intro d x0 y0 rows hrows
  refine ⟨draw_draw d x0 y0 hrows, fun hclear => ⟨?_, ?_⟩⟩
  · rw [← Bool.not_eq_true, draw_collides_iff d hrows]
    rintro ⟨py, px, hcovers, hon⟩
    simp [hclear py px hcovers] at hon
  · rintro ⟨row, hrow, hne⟩
    obtain ⟨py, px, hcovers⟩ := exists_covers_of_ne_zero hrow hne x0 y0
    refine (draw_collides_iff _ hrows).mpr ⟨py, px, hcovers, ?_⟩
    rw [cell_draw_of_covers d hrows hcovers, hclear py px hcovers, Bool.not_false]

/-- Settles O48: the cleared display; the frame is the footprint of 00E0. -/
theorem clsClearsTheDisplay : Obligations.ClsClearsTheDisplay := fun _ =>
  ⟨_, rfl, ⟨rfl, rfl⟩, Display.cell_clear, (effect_of_exec (i := .cls) rfl).frame⟩

/-- Settles O49: a draw of the bytes at `I` inside memory, the fault of R170 outside. -/
theorem drwDrawsAndFlagsCollision : Obligations.DrwDrawsAndFlagsCollision := by
  intro x y n s
  constructor
  · intro hfit
    have hrow : ∀ r < n.toNat, (Memory.readBytes s.mem s.i.toNat n.toNat)[r]? =
        some (Memory.read s.mem (s.i.toNat + r)) :=
      fun r hr => (Memory.readBytes_getElem? ..).trans (if_pos hr)
    exact ⟨_, _, exec_drw_fits x y n hfit, ⟨rfl, rfl⟩, Memory.readBytes_length _ _ _, hrow, rfl,
      State.getV_setV_same _ regF _, frame_drawn x y n s _ _⟩
  · intro hout
    exact exec_faults (if_pos hout)

/-- Settles O58: a cell set is the cell read, and no other. -/
theorem displayGetAndSet : Obligations.DisplayGetAndSet :=
  ⟨displayGet_inRange,
    fun px qx py qy on s => ⟨_, displaySet_inRange px py on s, rfl, Display.cell_setCell s.display py qy px qx on⟩,
    fun _ _ on s h => ⟨displayGet_outside s h, displaySet_outside on s h⟩⟩

end Sys2Proof.Machine
end

section
/-! SUPPORT. The keypad and the timers (45_keypad_timers.md): a key skip with its index in range, the two answers of Fx0A, a key
read after a key was set, and the step of a key move. -/

namespace Sys2Proof.Machine

variable {s : State}

/-! ## Key skips -/

/-- A skip on what a key is not (R153). -/
theorem finishSkip_not_spec (s : State) (c : Bool) :
    ∃ t, finishSkip (!c) s = .next t ∧ Completed (if c then s.pc + 2#16 else s.pc + 4#16) t ∧ Frame {} s t := by
  obtain ⟨t, ht, hc, frame⟩ := finishSkip_spec s (!c)
  rw [if_congr Bool.not_iff_not rfl rfl, ite_not] at hc
  exact ⟨t, ht, hc, frame⟩

/-- Ex9E with `vx` the index of a key skips if that key is down (R152). -/
theorem exec_skp_inRange {x : RegIndex} {k : Fin 16} (hk : k.val = (s.getV x).toNat) :
    exec (.skp x) s = finishSkip (Keypad.isDown s.keypad k) s :=
  finishKeySkip_inRange s (encode (.skp x)) (s.getV x) (fun down => down) k hk

/-- ExA1 with `vx` the index of a key skips if that key is up (R153). -/
theorem exec_sknp_inRange {x : RegIndex} {k : Fin 16} (hk : k.val = (s.getV x).toNat) :
    exec (.sknp x) s = finishSkip (!Keypad.isDown s.keypad k) s :=
  finishKeySkip_inRange s (encode (.sknp x)) (s.getV x) (fun down => !down) k hk

/-! ## The wait for a key -/

/-- Fx0A with a key down writes the key `KEY_PICK` reports (R154, R155). -/
theorem exec_waitk_picks (x : RegIndex) (h : Keypad.anyDown s.keypad = true) :
    exec (.waitk x) s = finishV x (BitVec.ofNat 8 (Keypad.pick s.keypad).val) s :=
  if_pos h

/-- Fx0A with no key down waits, and `pc` stays (R154, D10). -/
theorem exec_waitk_waits (x : RegIndex) (h : ¬ Keypad.anyDown s.keypad = true) :
    exec (.waitk x) s = .next { s with status := .awaitingKey } :=
  if_neg h

/-- A key index fits in its byte. -/
theorem keyByte_toNat (k : Fin 16) : (BitVec.ofNat 8 k.val).toNat = k.val :=
  (BitVec.toNat_ofNat k.val 8).trans (Nat.mod_eq_of_lt (k.isLt.trans (by decide)))

/-! ## Key moves -/

/-- The key that is set reads as it was set, and no other key changes (R150). -/
theorem Keypad.isDown_set (kp : Keypad) (k k' : Fin 16) (down : Bool) :
    Keypad.isDown (kp.set k.val down k.isLt) k' = if k = k' then down else Keypad.isDown kp k' := by
  simp only [Keypad.isDown, Fin.getElem_fin, Vector.getElem_set, Fin.ext_iff]

/-- A key move sets its key, or changes nothing if the index is refused (R150, R172). -/
theorem step_keyMove {k : Nat} {down : Bool} (hm : s.nextMove = if down then .keyDown k else .keyUp k) :
    step s = .next (orUnchanged s.popSchedule (setKey k down s.popSchedule)) := by
  rw [step, hm]
  cases down <;> rfl

end Sys2Proof.Machine
end

section
/-! PROOFS. The statements about the keypad and the timers (45_keypad_timers.md). -/

namespace Sys2Proof.Machine

/-- Settles O52: with the index in range both are skips, decided by the one key. -/
theorem keySkipsFollowTheKey : Obligations.KeySkipsFollowTheKey := by
  intro x k s hk
  rw [exec_skp_inRange hk.symm, exec_sknp_inRange hk.symm]
  obtain ⟨t, ht, hc, frame⟩ := finishSkip_spec s (Keypad.isDown s.keypad k)
  obtain ⟨u, hu, hcu, frameu⟩ := finishSkip_not_spec s (Keypad.isDown s.keypad k)
  exact ⟨⟨t, ht, frame, hc⟩, u, hu, frameu, hcu⟩

/-- Settles O53: the poll finds no key, or the pick is a key that is down, whatever the preference. -/
theorem waitkPollsTheKeypad : Obligations.WaitkPollsTheKeypad := by
  intro x s
  constructor
  · intro hup
    refine exec_waitk_waits x fun hany => ?_
    obtain ⟨k, hdown⟩ := (Keypad.anyDown_iff s.keypad).mp hany
    exact Bool.false_ne_true ((hup k).symm.trans hdown)
  · intro hdown
    have hany := (Keypad.anyDown_iff s.keypad).mpr hdown
    obtain ⟨t, ht, hc, hv, frame⟩ := finishV_spec s x (BitVec.ofNat 8 (Keypad.pick s.keypad).val)
    exact ⟨t, Keypad.pick s.keypad, (exec_waitk_picks x hany).trans ht, hc, Keypad.pick_isDown s.keypad hany,
      by rw [hv, keyByte_toNat], frame⟩

/-- Settles O54: one register or one timer written; the frames of Fx15 and Fx18 are their footprints. -/
theorem timerInstructionsMoveBytes : Obligations.TimerInstructionsMoveBytes := fun x s =>
  ⟨finishV_spec s x s.dt,
    ⟨_, rfl, ⟨rfl, rfl⟩, rfl, (effect_of_exec (i := .setdt x) rfl).frame⟩,
    ⟨_, rfl, ⟨rfl, rfl⟩, rfl, (effect_of_exec (i := .setst x) rfl).frame⟩⟩

/-- Settles O55: each timer that ticks is counted down, which stops at 0. -/
theorem tickCountsDownToZero : Obligations.TickCountsDownToZero := by
  refine ⟨fun s hm => by rw [step, hm, perform, tickTimer], fun soundToo s => ?_⟩
  refine ⟨countDown_toNat s.dt, ?_, rfl, rfl, fun _ _ => rfl, fun _ => rfl, fun _ => ⟨rfl, rfl⟩, nofun, nofun,
    fun _ _ => rfl, fun _ => rfl, fun _ => rfl, rfl, rfl⟩
  cases soundToo with
  | false => rfl
  | true => exact countDown_toNat s.st

/-- Settles O56: one flag set in range; outside, the refusal, which the step answers with the schedule moved on. -/
theorem keyMovesSetOneFlag : Obligations.KeyMovesSetOneFlag := by
  refine ⟨fun k down s => ?_, fun k down s hm => ?_, fun k down s => setKey_outside s k down, fun k s hk hm => ?_⟩
  · refine ⟨_, setKey_inRange s k down, rfl, ?_, fun k' hne => ?_⟩
    · exact (Keypad.isDown_set s.keypad k k down).trans (if_pos rfl)
    · exact (Keypad.isDown_set s.keypad k k' down).trans (if_neg hne.symm)
  · exact ⟨_, setKey_inRange s.popSchedule k down, by rw [step_keyMove hm, setKey_inRange]; rfl⟩
  · have refused (down : Bool) (hm : s.nextMove = if down then .keyDown k else .keyUp k) :
        step s = .next s.popSchedule := by
      rw [step_keyMove hm, setKey_outside _ k down hk, orUnchanged]
    exact hm.elim (refused true) (refused false)

end Sys2Proof.Machine
end

section
/-! SUPPORT. The halt and its end (R177, R178): what the host can still change, a run of cycles; and that every move of the host
answers a next state. -/

namespace Sys2Proof.Machine

variable {s : State}

/-! ## Every move goes on -/

/-- An instruction answers a next state, the one its effect gives (R94, R174). -/
theorem exec_answers (i : Instr) (s : State) : ∃ t, exec i s = .next t := by
  obtain ⟨t, ht, -⟩ := exec_effect i s
  exact ⟨t, ht⟩

/-- A cycle answers a next state: halted it stands still, otherwise it takes the fetch fault or runs an instruction (R90). -/
theorem cycle_answers (s : State) : ∃ t, cycle s = .next t := by
  cases hrun : s.isHalted with
  | true => exact ⟨s, cycle_halted s hrun⟩
  | false =>
    by_cases hpc : s.pc.toNat + 1 < 4096
    · rw [cycle_inRange hrun hpc]
      exact exec_answers _ s
    · exact ⟨_, cycle_outside hrun hpc⟩

/-- Besides the cycle every move of the host answers outright, a refused one with no change (R172). -/
theorem perform_answers (m : HostMove) (s : State) : ∃ t, perform m s = .next t := by
  cases m with
  | executeCycle => exact cycle_answers s
  | _ => exact ⟨_, rfl⟩

/-! ## The halted state -/

/-- A halted CPU that is not reset keeps all but what the host's moves write: memory, the keypad and the timers (R177,
R178, D33). -/
theorem step_halted_keeps (hhalt : s.isHalted = true) (hm : s.nextMove ≠ .reset) :
    ∃ mem' keypad' dt' st',
      step s = .next { s.popSchedule with mem := mem', keypad := keypad', dt := dt', st := st' } := by
  rw [step]
  cases hmove : s.nextMove with
  | executeCycle => exact ⟨s.mem, s.keypad, s.dt, s.st, cycle_halted s.popSchedule hhalt⟩
  | tickTimer => exact ⟨s.mem, s.keypad, _, _, rfl⟩
  | keyDown k => exact ⟨s.mem, _, s.dt, s.st, congrArg _ (orUnchanged_setKey s.popSchedule k true)⟩
  | keyUp k => exact ⟨s.mem, _, s.dt, s.st, congrArg _ (orUnchanged_setKey s.popSchedule k false)⟩
  | load bytes => exact ⟨_, s.keypad, s.dt, s.st, congrArg _ (orUnchanged_loadRom s.popSchedule bytes)⟩
  | reset => exact absurd hmove hm

/-! ## A run of cycles -/

/-- Where the host's coming operations are all cycles, the next one is. -/
theorem State.nextMove_of_all_cycles (h : ∀ m ∈ s.schedule, m = .executeCycle) : s.nextMove = .executeCycle := by
  unfold State.nextMove
  split
  · rfl
  · next m _ hs => exact h m (hs ▸ List.mem_cons_self)

/-- A run begins with its first step. -/
theorem run_succ_of_step {M : Host.Core} {u u' : M.State} (n : Nat) (h : M.step u = .next u') :
    M.run (n + 1) u = M.run n u' := by
  rw [Host.Core.run, h]

/-- Each cycle of the halted CPU moves the schedule on and nothing else, so a run of them does (R177). -/
theorem run_halted_cycles (n : Nat) (hhalt : s.isHalted = true) (hcycles : ∀ m ∈ s.schedule, m = .executeCycle) :
    Host.Core.run core n s = .next { s with schedule := s.schedule.drop n } := by
  induction n generalizing s with
  | zero => rfl
  | succ n ih =>
    have hstep : step s = .next s.popSchedule :=
      (step_cycle s (State.nextMove_of_all_cycles hcycles)).trans (cycle_halted s.popSchedule hhalt)
    have hrest : ∀ m ∈ s.popSchedule.schedule, m = .executeCycle := fun m hm => hcycles m (List.mem_of_mem_tail hm)
    calc Host.Core.run core (n + 1) s
        = Host.Core.run core n s.popSchedule := run_succ_of_step (M := core) n hstep
      _ = .next { s with schedule := s.schedule.tail.drop n } := ih (s := s.popSchedule) hhalt hrest
      _ = .next { s with schedule := s.schedule.drop (n + 1) } := by rw [List.drop_tail]

end Sys2Proof.Machine
end

section
/-! PROOFS. The statements about faults and the halt (60_exceptions.md). -/

namespace Sys2Proof.Machine

/-- Settles O8: by induction on the number of cycles. -/
theorem haltedCyclesChangeNothing : Obligations.HaltedCyclesChangeNothing := fun n _ => run_halted_cycles n

/-- Settles O9: by the host's moves; the reset state runs at the load address. -/
theorem haltLeftOnlyByReset : Obligations.HaltLeftOnlyByReset := by
  intro s hhalt
  refine ⟨fun hm => ?_, fun hm => ⟨s.popSchedule.resetBlock, by rw [step, hm, perform], rfl, rfl⟩⟩
  obtain ⟨_, _, _, _, hstep⟩ := step_halted_keeps hhalt hm
  exact ⟨_, hstep, rfl, rfl, rfl, rfl, rfl, rfl, rfl⟩

/-- Settles O10: an instruction answers its effect, and a step the host's next move. -/
theorem everyStepGoesOn : Obligations.EveryStepGoesOn :=
  ⟨exec_answers, fun s => perform_answers s.nextMove s.popSchedule⟩

/-- Settles O17: an effect is the listed fault or, with none listed, a state that is not halted. -/
theorem faultsExactlyAsListed : Obligations.FaultsExactlyAsListed := by
  intro i s
  obtain ⟨t, ht, effect⟩ := exec_effect i s
  cases effect with
  | faulted r listed =>
    refine ⟨fun hnone => ?_, fun r' hr' => ?_⟩
    · cases hnone.symm.trans listed
    · cases hr'.symm.trans listed
      exact ht
  | completed _ noFault running =>
    refine ⟨fun _ => ⟨t, ht, running⟩, fun r hr => ?_⟩
    cases noFault.symm.trans hr

end Sys2Proof.Machine
end

section
/-! PROOFS. The statement about loading a ROM (70_reset_and_hazards.md). -/

namespace Sys2Proof.Machine

variable {s : State} {bytes : List Byte}

/-- A load as the host's next operation: the loaded state, or no change if the ROM is refused (R203, R172). -/
theorem step_load (hm : s.nextMove = .load bytes) :
    step s = .next (orUnchanged s.popSchedule ((loadRom bytes s.popSchedule).map Prod.snd)) := by
  rw [step, hm, perform]

/-- Settles O57: a ROM that fits is one block store at 0x200; a longer one is the refusal, which the step answers with the
schedule moved on. -/
theorem loadCopiesTheRom : Obligations.LoadCopiesTheRom := by
  intro bytes s
  refine ⟨fun hfits => ?_, fun hfits hm => ?_, fun hlong => ⟨loadRom_tooLong s bytes hlong, fun hm => ?_⟩⟩
  · exact ⟨_, loadRom_fits s bytes hfits, rfl,
      fun j hj => Memory.read_writeBytes_inside s.mem 0x200 j bytes hj,
      fun a ha => Memory.read_writeBytes_outside s.mem 0x200 a bytes ha⟩
  · exact ⟨_, loadRom_fits s.popSchedule bytes hfits, by rw [step_load hm, loadRom_fits _ bytes hfits]; rfl⟩
  · rw [step_load hm, loadRom_tooLong _ bytes hlong]
    rfl

end Sys2Proof.Machine
end
